-- ==== Sys2Proof/Word.lean ====
section
/-! DEFINITION. The 64-bit value every register cell, every RDATA and every WDATA is (00 R8 W = 64, R14;
20 R52: an access moves exactly 64 bits). Bit 0 is the least significant bit (00 R13). -/

namespace Sys2Proof

/-- The `u64` of the spec: an unsigned 64-bit value (00 R14). -/
abbrev Word := BitVec 64

end Sys2Proof
end

