-- ==== Sys2Proof/Syntax.lean ====
section
/-! DEFINITION. The operations of the block, one constructor per row of spec/opcode_table.json, and their encoded
form (30 R67 to R74, R82). -/

namespace Sys2Proof

/-- The two ports (00 R10). -/
inductive Port where
  | a
  | b
  deriving DecidableEq, Repr, Inhabited

/-- An operation with its operands. `p` is the port whose software issues the access (30 R69) or evaluates the
function; a FUNC has no port in the spec, and the model's `p` only says to whom the result or the fault goes
(log entry 5). `i` is the field IDX, a window index. FUNC inputs are natural numbers passed unchanged
(30 R72), except `reg` and `csr`, which are 64-bit register values. -/
inductive Instr where
  /-- RD.TXSLOT (40 R85). -/
  | rdTxSlot (p : Port) (i : BitVec 7)
  /-- WR.TXSLOT (40 R86). -/
  | wrTxSlot (p : Port) (i : BitVec 7) (v : Word)
  /-- RD.TXIR (40 R87). -/
  | rdTxIr (p : Port)
  /-- WR.TXIR (40 R88). -/
  | wrTxIr (p : Port) (v : Word)
  /-- RD.TXCSR (40 R90). -/
  | rdTxCsr (p : Port)
  /-- WR.TXCSR (40 R89). -/
  | wrTxCsr (p : Port) (v : Word)
  /-- RD.RXSLOT (40 R91). -/
  | rdRxSlot (p : Port) (i : BitVec 7)
  /-- WR.RXSLOT (40 R92). -/
  | wrRxSlot (p : Port) (i : BitVec 7) (v : Word)
  /-- RD.RXIR (40 R93). -/
  | rdRxIr (p : Port)
  /-- WR.RXIR (40 R94). -/
  | wrRxIr (p : Port) (v : Word)
  /-- RD.RXCSR (40 R95). -/
  | rdRxCsr (p : Port)
  /-- WR.RXCSR (40 R96). -/
  | wrRxCsr (p : Port) (v : Word)
  /-- HEAD.GET (41 R100). -/
  | headGet (p : Port) (reg : Word)
  /-- TAIL.GET (41 R101). -/
  | tailGet (p : Port) (reg : Word)
  /-- HEAD.PACK (41 R102). -/
  | headPack (p : Port) (reg : Word) (h : Nat)
  /-- TAIL.PACK (41 R103). -/
  | tailPack (p : Port) (reg : Word) (t : Nat)
  /-- CSR.EN (41 R104). -/
  | csrEn (p : Port) (csr : Word)
  /-- CSR.VALID (41 R105). -/
  | csrValid (p : Port) (csr : Word)
  /-- CSR.MAKE (41 R106). -/
  | csrMake (p : Port) (en valid : Nat)
  /-- MODCAP (42 R107). -/
  | modCap (p : Port) (v : Nat)
  /-- ADV (42 R108). -/
  | adv (p : Port) (i : Nat)
  /-- USED (42 R109). -/
  | used (p : Port) (head tail : Nat)
  /-- FREE (42 R110). -/
  | free (p : Port) (head tail : Nat)
  deriving DecidableEq, Repr

/-- An operation in encoded form (30 R82): (port, OPW, WDATA) for a BUS operation, (OPW, inputs) for a FUNC.
`word` is the 64-bit operand (WDATA of a BUS write; `reg` or `csr` of a codec function); `x` and `y` are the
natural-number inputs in the order of 30 R74 and R80. An operation does not look at an operand it does not have. -/
structure Request where
  port : Port
  opw  : BitVec 9
  word : Word
  x    : Nat
  y    : Nat
  deriving DecidableEq, Repr

end Sys2Proof
end

