-- ==== Sys2Proof/WellFormed.lean ====
section
/-! DEFINITION. Which operations have an encoding: the slot operations only with an IDX in their own range
(30 R73). Every other operand value is encodable; a FUNC input outside its range is a fault of the function
(41, 42), not an ill-formed operation. -/

namespace Sys2Proof

/-- IDX of a send slot: 0 to 61 (30 R73). -/
def isTxSlotIdx (i : BitVec 7) : Bool := decide (i.toNat ≤ 61)

/-- IDX of a receive slot: 64 to 125 (30 R73). -/
def isRxSlotIdx (i : BitVec 7) : Bool := decide (64 ≤ i.toNat ∧ i.toNat ≤ 125)

/-- The operation has an operation word. -/
def Instr.wf : Instr → Bool
  | .rdTxSlot _ i => isTxSlotIdx i
  | .wrTxSlot _ i _ => isTxSlotIdx i
  | .rdRxSlot _ i => isRxSlotIdx i
  | .wrRxSlot _ i _ => isRxSlotIdx i
  | .rdTxIr _ => true
  | .wrTxIr _ _ => true
  | .rdTxCsr _ => true
  | .wrTxCsr _ _ => true
  | .rdRxIr _ => true
  | .wrRxIr _ _ => true
  | .rdRxCsr _ => true
  | .wrRxCsr _ _ => true
  | .headGet _ _ => true
  | .tailGet _ _ => true
  | .headPack _ _ _ => true
  | .tailPack _ _ _ => true
  | .csrEn _ _ => true
  | .csrValid _ _ => true
  | .csrMake _ _ _ => true
  | .modCap _ _ => true
  | .adv _ _ => true
  | .used _ _ _ => true
  | .free _ _ _ => true

end Sys2Proof
end

