-- ==== Sys2Proof/Decode.lean ====
section
/-! DEFINITION. Decoding an operation in encoded form, total on the 512 values of OPW (30 R75), rejecting by name
(30 R76), and after it the encoder, written from the opcode maps (30 R73, R74). -/

namespace Sys2Proof

/-- Why an operation word is rejected. -/
inductive DecodeError where
  /-- A FUNC word with OPW[7:4] ≠ 0000 or FSEL ≥ 11 (30 R76): performing it raises FAULT_ILLEGAL_OP. -/
  | illegal (opw : BitVec 9)
  deriving DecidableEq, Repr

/-- OPW[8], the format bit: 0 = BUS, 1 = FUNC (30 R68). -/
def opwIsFunc (opw : BitVec 9) : Bool := opw.getLsbD 8

/-- OPW[7], WE of the BUS format (30 R69). -/
def opwWe (opw : BitVec 9) : Bool := opw.getLsbD 7

/-- OPW[6:0], IDX of the BUS format (30 R69). -/
def opwIdx (opw : BitVec 9) : BitVec 7 := opw.extractLsb' 0 7

/-- OPW[7:4], which a FUNC word has 0000 (30 R70). -/
def opwZ (opw : BitVec 9) : BitVec 4 := opw.extractLsb' 4 4

/-- OPW[3:0], FSEL of the FUNC format (30 R70). -/
def opwFsel (opw : BitVec 9) : Nat := (opw.extractLsb' 0 4).toNat

/-- The read operation of window index `i`, by its class (30 R73, R75). -/
def rdOf (p : Port) (i : BitVec 7) : Instr :=
  if i.toNat ≤ 61 then .rdTxSlot p i
  else if i.toNat = 62 then .rdTxIr p
  else if i.toNat = 63 then .rdTxCsr p
  else if i.toNat ≤ 125 then .rdRxSlot p i
  else if i.toNat = 126 then .rdRxIr p
  else .rdRxCsr p

/-- The write operation of window index `i`, by its class (30 R73, R75). -/
def wrOf (p : Port) (i : BitVec 7) (v : Word) : Instr :=
  if i.toNat ≤ 61 then .wrTxSlot p i v
  else if i.toNat = 62 then .wrTxIr p v
  else if i.toNat = 63 then .wrTxCsr p v
  else if i.toNat ≤ 125 then .wrRxSlot p i v
  else if i.toNat = 126 then .wrRxIr p v
  else .wrRxCsr p v

/-- FUNC_TABLE of 30 R75, the rows of 30 R74; none for FSEL 11 to 15. -/
def funcOf (r : Request) : Nat → Option Instr
  | 0 => some (.headGet r.port r.word)
  | 1 => some (.tailGet r.port r.word)
  | 2 => some (.headPack r.port r.word r.x)
  | 3 => some (.tailPack r.port r.word r.x)
  | 4 => some (.csrEn r.port r.word)
  | 5 => some (.csrValid r.port r.word)
  | 6 => some (.csrMake r.port r.x r.y)
  | 7 => some (.modCap r.port r.x)
  | 8 => some (.adv r.port r.x)
  | 9 => some (.used r.port r.x r.y)
  | 10 => some (.free r.port r.x r.y)
  | _ => none

/-- 30 R75. -/
def decode (r : Request) : Except DecodeError Instr :=
  if opwIsFunc r.opw then
    if opwZ r.opw ≠ 0 then .error (.illegal r.opw)
    else
      match funcOf r (opwFsel r.opw) with
      | some i => .ok i
      | none => .error (.illegal r.opw)
  else if opwWe r.opw then .ok (wrOf r.port (opwIdx r.opw) r.word)
  else .ok (rdOf r.port (opwIdx r.opw))

/-- A BUS word: 0, WE, IDX (30 R69). -/
def busWord (we : Bool) (i : BitVec 7) : BitVec 9 := 0#1 ++ BitVec.ofBool we ++ i

/-- A FUNC word: 1, 0000, FSEL (30 R70). -/
def funcWord (fsel : BitVec 4) : BitVec 9 := 1#1 ++ 0#4 ++ fsel

/-- The encoded form of an operation (30 R73, R74, R82); an operand it does not have is 0. -/
def encode : Instr → Request
  | .rdTxSlot p i => ⟨p, busWord false i, 0, 0, 0⟩
  | .wrTxSlot p i v => ⟨p, busWord true i, v, 0, 0⟩
  | .rdTxIr p => ⟨p, busWord false 62, 0, 0, 0⟩
  | .wrTxIr p v => ⟨p, busWord true 62, v, 0, 0⟩
  | .rdTxCsr p => ⟨p, busWord false 63, 0, 0, 0⟩
  | .wrTxCsr p v => ⟨p, busWord true 63, v, 0, 0⟩
  | .rdRxSlot p i => ⟨p, busWord false i, 0, 0, 0⟩
  | .wrRxSlot p i v => ⟨p, busWord true i, v, 0, 0⟩
  | .rdRxIr p => ⟨p, busWord false 126, 0, 0, 0⟩
  | .wrRxIr p v => ⟨p, busWord true 126, v, 0, 0⟩
  | .rdRxCsr p => ⟨p, busWord false 127, 0, 0, 0⟩
  | .wrRxCsr p v => ⟨p, busWord true 127, v, 0, 0⟩
  | .headGet p reg => ⟨p, funcWord 0, reg, 0, 0⟩
  | .tailGet p reg => ⟨p, funcWord 1, reg, 0, 0⟩
  | .headPack p reg h => ⟨p, funcWord 2, reg, h, 0⟩
  | .tailPack p reg t => ⟨p, funcWord 3, reg, t, 0⟩
  | .csrEn p csr => ⟨p, funcWord 4, csr, 0, 0⟩
  | .csrValid p csr => ⟨p, funcWord 5, csr, 0, 0⟩
  | .csrMake p en valid => ⟨p, funcWord 6, 0, en, valid⟩
  | .modCap p v => ⟨p, funcWord 7, 0, v, 0⟩
  | .adv p i => ⟨p, funcWord 8, 0, i, 0⟩
  | .used p head tail => ⟨p, funcWord 9, 0, head, tail⟩
  | .free p head tail => ⟨p, funcWord 10, 0, head, tail⟩

/-- The request that stands for a table word `w`: OPW is its bits 8:0, issued by port A, every operand 0. Bits
above 8 are no bits of an operation word (30 R68) and are not looked at (log entry 10). -/
def tableRequest (w : Nat) : Request := ⟨.a, BitVec.ofNat 9 w, 0, 0, 0⟩

/-- What the decoder reads from the operation word in `w`'s bits 8:0. `nbits` plays no part: every operation has
one word of 9 bits (30 R68, R79). -/
def decodeTableWord (_nbits w : Nat) : Option Instr :=
  match decode (tableRequest w) with
  | .ok i => some i
  | .error _ => none

end Sys2Proof
end

