-- ==== Sys2Proof/Config.lean ====
section
/-! DEFINITION. The fixed parameters of this hardware (00 R8) and the parameters the spec leaves open (00 R12;
92: WINDOW_BASE D15, HOST_ENDIAN D16, VALID_GATES_IRQ D10, SPURIOUS_DELIVERY D12). An open parameter is a constant
with no body: nothing can be proved of its value. -/

namespace Sys2Proof.Config

/-- NCELLS: the number of indices the accessor admits (00 R8). -/
def ncells : Nat := 128
/-- CAPACITY of this hardware (00 R8, R9). The model's functions take C as an argument. -/
def capacity : Nat := 62
/-- First send data slot index (00 R8). -/
def txBase : Nat := 0
/-- Send info register index (00 R8). -/
def txIr : Nat := 62
/-- Send control/status register index (00 R8). -/
def txCsr : Nat := 63
/-- First receive data slot index (00 R8). -/
def rxBase : Nat := 64
/-- Receive info register index (00 R8). -/
def rxIr : Nat := 126
/-- Receive control/status register index (00 R8). -/
def rxCsr : Nat := 127
/-- DOORBELL: the value written to TX_CSR to ring (00 R8, 41 R99). -/
def doorbell : Word := 0xFFFFFFFFFFFFFFFF

/-- VALID_GATES_IRQ (92 D10): whether the interrupt output also requires a non-zero VALID field. Open. -/
opaque validGatesIrq : Bool

/-- SPURIOUS_DELIVERY (92 D12): whether the platform may invoke the handler while IRQ is low. Open. -/
opaque spuriousDelivery : Bool

/-- The window's first byte address in units of 8 bytes. Open. -/
opaque windowBaseCell : Nat

/-- WINDOW_BASE (92 D15): the host byte address of cell 0. Open, but 8-byte aligned. -/
def windowBase : Nat := 8 * windowBaseCell

/-- The two byte orders a host may have. -/
inductive Endian where
  | little
  | big
  deriving DecidableEq, Repr, Inhabited

/-- HOST_ENDIAN (92 D16): the host's byte order. Open; no rule depends on it, since accesses narrower than a
cell are refused (20 R51). -/
opaque hostEndian : Endian

end Sys2Proof.Config
end

