-- ==== Sys2Proof/Machine/State.lean ====
section
/-! DEFINITION. The state of the block, of the platform around it and of the reference sequences (10 R20), the
faults and refusals (60 R141, R148), the inputs the outside gives (43 R117), and the state after reset (70 R170). -/

namespace Sys2Proof.Machine

/-- The sub-field a FAULT_FIELD_RANGE names (41 R102, R103, R106). -/
inductive Field where
  | head
  | tail
  | csr
  deriving DecidableEq, Repr

/-- The function a FAULT_ARITH_RANGE names. FREE's fault is USED's (42 R110: "USED faults first"). -/
inductive ArithOp where
  | modCap
  | adv
  | used
  deriving DecidableEq, Repr

/-- The fault codes of 60 R141 with the information recorded. They are raised by `raiseFault`, which answers a NEXT
state: the fault record is written and the acting agent ended, while the block and the other agents go on
(60 R142, R146). Safe: it is what the spec says happens, and no observation of a faulted run is a final state. -/
inductive Fault where
  /-- Code 1, raised by an accessor call whose index is 128 or more (40 R84). Safe. -/
  | idxRange (p : Port) (index : Nat) (write : Bool)
  /-- Code 2, raised by DRAIN's step D4 at the append beyond DRAIN_MAX (43 R125). Safe. -/
  | drainOverrun (p : Port)
  /-- Code 3, raised by HEAD.PACK, TAIL.PACK and CSR.MAKE (41 R102, R103, R106), with the value that does not fit. Safe. -/
  | fieldRange (field : Field) (value : Nat)
  /-- Code 4, raised by MODCAP, ADV, USED and FREE (42 R107 to R110). Safe. -/
  | arithRange (op : ArithOp) (inputs : List Nat)
  /-- Code 5, raised by DRAIN's step D7 when the platform's acknowledgement is not 0 (43 R128). Safe. -/
  | ackFail (p : Port) (status : Word)
  /-- Code 6, raised by performing an operation word that decodes to ILLEGAL (30 R76). Safe. -/
  | illegalOp (opw : BitVec 9)
  deriving DecidableEq, Repr

/-- The refusal reasons of 60 R148, and the host's rejection of an operation without a meaning. A reason of the
spec is set as the refusal mark in a NEXT state: the refused use changes no block state (60 R147). -/
inductive Refusal where
  /-- Raised by no meaning: every operation has one. It is the form of a rejected arm of `exec`. Safe. -/
  | notModelled (mnemonic : String)
  /-- REFUSE_DOORBELL_VALUE, set by a write to TX_CSR of a value other than all ones (40 R89). Safe. -/
  | doorbellValue
  /-- REFUSE_SUBWORD, set by a host access that is not 8 bytes at WINDOW_BASE + 8 i, i < 128 (20 R52, R53). Safe. -/
  | subword
  /-- REFUSE_CONCURRENT_SEND, set by a second SEND on a port while one is active (43 R138). Safe. -/
  | concurrentSend
  deriving DecidableEq, Repr

/-- PHYS as a list of (cell index, value) pairs. The block is addressed by cell of 64 bits, not by byte
(20 R47, R51), so the cell is the unit. One canonical form: indices strictly rising, no entry equal to what an
unlisted cell reads as (`Memory.wf` in Machine/Ops.lean). -/
abbrev Memory := List (Nat × Word)

/-- What an unlisted cell of PHYS reads as: the reset value 0 (10 R21). -/
def Memory.unlisted : Word := 0

/-- LOCK[p] (10 R38). -/
inductive Lock where
  | free
  | held
  deriving DecidableEq, Repr

/-- The labels of DRAIN (43 R121 to R128), one per access or local action. -/
inductive DrainPos where
  /-- D1: acquire the lock. -/
  | d1
  /-- D2: the read of RX_CSR. -/
  | d2Read
  /-- D2: the write of RX_CSR. -/
  | d2Write
  /-- D3: the read of RX_IR. -/
  | d3Rx
  /-- D3: the read of TX_IR. -/
  | d3Tx
  /-- D4: the loop test, the bound check and the slot read. -/
  | d4
  /-- D4: the advance of head. -/
  | d4Adv
  /-- D5: the read of TX_IR. -/
  | d5Read
  /-- D5: the write of TX_IR. -/
  | d5Write
  /-- D6: release the lock. -/
  | d6
  /-- D7: wait for the platform's acknowledgement. -/
  | d7
  deriving DecidableEq, Repr

/-- An active DRAIN: its position and its locals (43 R114). -/
structure Drain where
  pos   : DrainPos
  c     : Word
  valid : BitVec 63
  rir   : Word
  sir   : Word
  r     : Word
  tail  : Nat
  head  : Nat
  n     : Nat
  buf   : List Word
  deriving DecidableEq, Repr

/-- DRAIN as it is entered. The locals are written before they are read (43 R114), so what they hold here is
never read. -/
def Drain.start : Drain :=
  { pos := .d1, c := 0, valid := 0, rir := 0, sir := 0, r := 0, tail := 0, head := 0, n := 0, buf := [] }

/-- The labels of SEND (43 R130 to R136), one per access or local action. -/
inductive SendPos where
  /-- S0: the empty-input test. -/
  | s0
  /-- Sa: the read of TX_IR. -/
  | saTx
  /-- Sa: the read of RX_IR. -/
  | saRx
  /-- Sb: used and free. -/
  | sb
  /-- Sc: poll while nothing is free. -/
  | sc
  /-- Sd: the count of words of this pass. -/
  | sdCount
  /-- Sd: the loop test and the slot write. -/
  | sdWrite
  /-- Sd: the advance of tail. -/
  | sdAdv
  /-- Se: the read of TX_IR. -/
  | seRead
  /-- Se: the write of TX_IR. -/
  | seWrite
  /-- Sf: the doorbell. -/
  | sf
  /-- Sg: the sent count; repeat or return. -/
  | sg
  deriving DecidableEq, Repr

/-- An active SEND: its position, the caller's words and its locals (43 R114). -/
structure Send where
  pos   : SendPos
  words : List Word
  sent  : Nat
  sir   : Word
  rir   : Word
  r     : Word
  tail  : Nat
  head  : Nat
  used  : Nat
  free  : Nat
  k     : Nat
  j     : Nat
  deriving DecidableEq, Repr

/-- SEND as it is called with a word list; its other locals are written before they are read (43 R114). -/
def Send.start (words : List Word) : Send :=
  { pos := .s0, words := words, sent := 0, sir := 0, rir := 0, r := 0, tail := 0, head := 0, used := 0, free := 0,
    k := 0, j := 0 }

/-- What a port's ordinary calling context is doing (43 R115). -/
inductive Caller where
  | idle
  | init
  | send (x : Send)
  deriving DecidableEq, Repr

/-- The agents of a port: one that issues single operations, the ordinary calling context, the interrupt handler. -/
inductive Ctx where
  | direct
  | caller
  | handler
  deriving DecidableEq, Repr

/-- An acting agent (60 R142). -/
structure Agent where
  port : Port
  ctx  : Ctx
  deriving DecidableEq, Repr

/-- The state of one port: its block registers, its platform state, its sequences (10 R20 b to d). -/
structure PortState where
  /-- TXCSR[p], the send control/status register (10 R24). -/
  txcsr : Word
  /-- RXCSR[p], the receive control/status register: EN 63, VALID 62:0 (10 R26). -/
  rxcsr : Word
  /-- PEND[p], the doorbell pending latch (10 R29). -/
  pend : Bool
  /-- LOCK[p], the driver lock (10 R38). -/
  lock : Lock
  /-- INH[p], the handler-active flag (10 R39). -/
  inh : Bool
  /-- INIT on p has completed (60 R158; 70 R173). -/
  initDone : Bool
  /-- The sequence in the ordinary context (43 R115). -/
  caller : Caller
  /-- The sequence in the handler (43 R115). -/
  drain : Option Drain
  /-- The direct agent has faulted and takes no further step (60 R142). -/
  directEnded : Bool
  /-- The ordinary context has faulted and takes no further step (60 R142). -/
  callerEnded : Bool
  /-- The handler has faulted and takes no further step (60 R142). -/
  handlerEnded : Bool
  /-- The model's own: RDATA last delivered to the direct agent (30 R69, R71; log entry 5). -/
  rdata : Word
  /-- The model's own: the FUNC result last returned to the direct agent (30 R70; log entry 5). -/
  fval : Nat
  deriving DecidableEq, Repr

/-- What the outside does next (43 R117; 30 R82). The list of them in State orders the accesses of both ports
(20 R60) and carries every choice the spec leaves to the outside. -/
inductive Input where
  /-- The direct agent of a port performs one operation in encoded form (30 R82). -/
  | issue (r : Request)
  /-- The direct agent of `p` calls read(index) with a natural-number index (40 R83, R84). -/
  | callRead (p : Port) (index : Nat)
  /-- The direct agent of `p` calls write(index, value) (40 R83, R84). -/
  | callWrite (p : Port) (index : Nat) (v : Word)
  /-- A host read of `size` bytes at byte address `addr` through port `p` (20 R50, R52, R53). -/
  | hostRead (p : Port) (addr size : Nat)
  /-- A host write of `size` bytes at byte address `addr` through port `p` (20 R50, R52, R53). -/
  | hostWrite (p : Port) (addr size : Nat) (v : Word)
  /-- The platform of `p` calls onInit (43 R116). -/
  | init (p : Port)
  /-- A caller on `p` calls send(words) (43 R116). -/
  | send (p : Port) (words : List Word)
  /-- The platform of `p` invokes the handler onReceiveInterrupt (60 R158). -/
  | interrupt (p : Port)
  /-- The ordinary context of `p` performs its next step (43 R113). -/
  | caller (p : Port)
  /-- The handler of `p` performs its next step (43 R113). -/
  | handler (p : Port)
  /-- The platform of `p` answers DRAIN's acknowledgement with `status`, the draw ACK_RESULT (43 R128). -/
  | ack (p : Port) (status : Word)
  /-- The reset event, on both ports at once (70 R169). -/
  | reset
  deriving DecidableEq, Repr

/-- The state of the model (10 R20). -/
structure State where
  /-- PHYS, the shared cells (10 R21). -/
  phys : Memory
  /-- Port A. -/
  a : PortState
  /-- Port B. -/
  b : PortState
  /-- The parameter C, CAPACITY: 62 for this hardware, 2 to 62 in the spec (00 R9). No step changes it
  (log entry 6). -/
  cap : Nat
  /-- The fault record: the first fault (10 R40). -/
  fault : Option Fault
  /-- The refusal mark: the first refusal (10 R41). -/
  refusal : Option Refusal
  /-- The model's own: what the outside does next, oldest first (log entry 1). -/
  inputs : List Input
  deriving DecidableEq, Repr

/-- A port after reset (70 R170). `rdata` and `fval` are the model's own: DESIGN CHOICE 0 (log entry 5). -/
def PortState.reset : PortState :=
  { txcsr := 0, rxcsr := 0, pend := false, lock := .free, inh := false, initDone := false, caller := .idle,
    drain := none, directEnded := false, callerEnded := false, handlerEnded := false, rdata := 0, fval := 0 }

/-- The machine right after reset (70 R169, R170): every cell and register 0, no sequence active, no record, no
mark. No input is given yet: DESIGN CHOICE (log entry 1). -/
def State.reset : State :=
  { phys := [], a := .reset, b := .reset, cap := Config.capacity, fault := none, refusal := none, inputs := [] }

end Sys2Proof.Machine
end

