-- ==== Sys2Proof/Machine/Ops.lean ====
section
/-! DEFINITION. The named operations over memory, registers and agents: the shared cells, the accessor with its
index check and its two side effects (40 R83, R84, R89, R96), raising a fault and marking a refusal (60 R142, R147),
and taking an interrupt and returning from it (60 R158, R160). -/

namespace Sys2Proof.Machine

/-- The other port (00 R15). -/
def other : Port → Port
  | .a => .b
  | .b => .a

/-- The state of port `p`. -/
def portOf (s : State) : Port → PortState
  | .a => s.a
  | .b => s.b

/-- Replace the state of port `p`. -/
def setPort (s : State) (p : Port) (P : PortState) : State :=
  match p with
  | .a => { s with a := P }
  | .b => { s with b := P }

/-- Change the state of port `p`. -/
def modPort (s : State) (p : Port) (f : PortState → PortState) : State := setPort s p (f (portOf s p))

/-! The shared cells. -/

/-- SHARED, the indices of the physical cells (10 R20). -/
def isShared (k : Nat) : Bool := decide (k ≤ 126 ∧ k ≠ 63)

/-- The value of cell `k`. -/
def readCell : Memory → Nat → Word
  | [], _ => Memory.unlisted
  | (i, w) :: m, k => if i = k then w else readCell m k

/-- Put an entry before a memory, or none where an unlisted cell reads as `v`. -/
def consCell (k : Nat) (v : Word) (m : Memory) : Memory := if v = Memory.unlisted then m else (k, v) :: m

/-- Store `v` in cell `k`: all 64 bits (10 R21). -/
def writeCell : Memory → Nat → Word → Memory
  | [], k, v => consCell k v []
  | (i, w) :: m, k, v =>
    if i < k then (i, w) :: writeCell m k v
    else if i = k then consCell k v m
    else consCell k v ((i, w) :: m)

/-- Every index of the list is above `lo`. -/
def indicesAbove (lo : Nat) (m : Memory) : Bool := m.all fun e => decide (lo < e.1)

/-- Indices strictly rise. -/
def indicesRise : Memory → Bool
  | [] => true
  | (i, _) :: m => indicesAbove i m && indicesRise m

/-- The canonical form: strictly rising indices, no entry an unlisted cell would read as, only cells that exist. -/
def Memory.wf (m : Memory) : Bool :=
  indicesRise m && m.all fun e => isShared e.1 && decide (e.2 ≠ Memory.unlisted)

/-! The window of a port. -/

/-- The physical cell port `p` reaches at window index `i` ∉ {63, 127} (10 R23). -/
def physIndex (p : Port) (i : Nat) : Nat :=
  match p with
  | .a => i
  | .b => i ^^^ 64

/-- view(p, i) (10 R23). -/
def view (s : State) (p : Port) (i : Nat) : Word :=
  if i = Config.txCsr then (portOf s p).txcsr
  else if i = Config.rxCsr then (portOf s p).rxcsr
  else readCell s.phys (physIndex p i)

/-- How an operation ends without its effect: in a fault or in a refusal. -/
inductive Stop where
  | fault (f : Fault)
  | refuse (r : Refusal)
  deriving DecidableEq, Repr

/-- MemRead(p, i): one read access; no side effect (40 R83, R84; 20 R55). -/
def memRead (s : State) (p : Port) (i : Nat) : Except Fault Word :=
  if Config.ncells ≤ i then .error (.idxRange p i false) else .ok (view s p i)

/-- doorbell_pulse(q) (60 R153). -/
def doorbellPulse (q : Port) (s : State) : State := modPort s q fun P => { P with pend := true }

/-- txcsr_write(p, v): the doorbell; any other value is refused with nothing stored (40 R89). -/
def txcsrWrite (s : State) (p : Port) (v : Word) : Except Stop State :=
  if v ≠ Config.doorbell then .error (.refuse .doorbellValue)
  else .ok (doorbellPulse (other p) (modPort s p fun P => { P with txcsr := v }))

/-- rxcsr_write(p, v): stores all 64 bits and clears PEND[p] (40 R96; 60 R154). -/
def rxcsrWrite (s : State) (p : Port) (v : Word) : State :=
  modPort s p fun P => { P with rxcsr := v, pend := false }

/-- MemWrite(p, i, v): one write access (40 R83, R84). -/
def memWrite (s : State) (p : Port) (i : Nat) (v : Word) : Except Stop State :=
  if Config.ncells ≤ i then .error (.fault (.idxRange p i true))
  else if i = Config.txCsr then txcsrWrite s p v
  else if i = Config.rxCsr then .ok (rxcsrWrite s p v)
  else .ok { s with phys := writeCell s.phys (physIndex p i) v }

/-! Faults and refusals. -/

/-- The fault's number (60 R141). -/
def faultCode : Fault → Nat
  | .idxRange _ _ _ => 1
  | .drainOverrun _ => 2
  | .fieldRange _ _ => 3
  | .arithRange _ _ => 4
  | .ackFail _ _ => 5
  | .illegalOp _ => 6

/-- The agent takes no further step (60 R142). -/
def endAgent (ag : Agent) (s : State) : State :=
  modPort s ag.port fun P =>
    match ag.ctx with
    | .direct => { P with directEnded := true }
    | .caller => { P with callerEnded := true }
    | .handler => { P with handlerEnded := true }

/-- raise Fault: the first fault is recorded and kept, and the acting agent is ended; nothing else changes
(10 R40; 60 R142, R143, R146). -/
def raiseFault (ag : Agent) (f : Fault) (s : State) : State :=
  endAgent ag { s with fault := s.fault.orElse fun _ => some f }

/-- refuse(reason): the first reason is marked and kept; nothing else changes (10 R41; 60 R147). -/
def refuse (r : Refusal) (s : State) : State := { s with refusal := s.refusal.orElse fun _ => some r }

/-- End an operation of `ag` that stopped. -/
def stopWith (ag : Agent) (st : Stop) (s : State) : State :=
  match st with
  | .fault f => raiseFault ag f s
  | .refuse r => refuse r s

/-! What the direct agent of a port receives from one operation (30 R69 to R71). -/

/-- The answer of a read: RDATA, or the fault. -/
def answerRead (p : Port) (res : Except Fault Word) (s : State) : Host.Outcome State Fault Refusal :=
  match res with
  | .ok w => .next (modPort s p fun P => { P with rdata := w })
  | .error f => .next (raiseFault ⟨p, .direct⟩ f s)

/-- The answer of a write: the state after it, or the fault or refusal. -/
def answerWrite (p : Port) (res : Except Stop State) (s : State) : Host.Outcome State Fault Refusal :=
  match res with
  | .ok s' => .next s'
  | .error st => .next (stopWith ⟨p, .direct⟩ st s)

/-- The answer of a function: its value, or the fault. No block state changes (30 R70). -/
def answerValue (p : Port) (res : Except Fault Nat) (s : State) : Host.Outcome State Fault Refusal :=
  match res with
  | .ok v => .next (modPort s p fun P => { P with fval := v })
  | .error f => .next (raiseFault ⟨p, .direct⟩ f s)

/-! Interrupt entry and return: the exception mechanism of this hardware (60 R158, R160). -/

/-- Entry: INH[p] is set and DRAIN starts; the block saves nothing and changes nothing (60 R158). -/
def takeInterrupt (p : Port) (s : State) : State :=
  modPort s p fun P => { P with inh := true, drain := some Drain.start }

/-- Return: INH[p] is cleared and DRAIN is no longer active; the block restores nothing (60 R160). -/
def returnFromInterrupt (p : Port) (s : State) : State :=
  modPort s p fun P => { P with inh := false, drain := none }

end Sys2Proof.Machine
end

