-- ==== Sys2Proof/Machine/Operands.lean ====
section
/-! DEFINITION. The operand functions: the bit-field codec (41 R99 to R106) and the pointer arithmetic for any
parameter C (42 R107 to R112). Every function is combinational. -/

namespace Sys2Proof.Machine

/-- 41 R99. -/
def headMask : Word := 0x00000000000000FF
/-- 41 R99. -/
def tailMask : Word := 0x000000000000FF00
/-- 41 R99. -/
def rsvdMask : Word := 0xFFFFFFFFFFFF0000
/-- 41 R99. -/
def enMask : Word := 0x8000000000000000
/-- 41 R99; bit 62 belongs to VALID (90 C1). -/
def validMask : Word := 0x7FFFFFFFFFFFFFFF

/-- HEAD.GET: reg[7:0] (41 R100). -/
def headGet (reg : Word) : Nat := (reg.extractLsb' 0 8).toNat

/-- TAIL.GET: reg[15:8] (41 R101). -/
def tailGet (reg : Word) : Nat := (reg.extractLsb' 8 8).toNat

/-- HEAD.PACK (41 R102). -/
def headPack (c : Nat) (reg : Word) (h : Nat) : Except Fault Word :=
  if c ≤ h then .error (.fieldRange .head h)
  else .ok ((reg &&& ~~~headMask) ||| BitVec.ofNat 64 h)

/-- TAIL.PACK (41 R103). -/
def tailPack (c : Nat) (reg : Word) (t : Nat) : Except Fault Word :=
  if c ≤ t then .error (.fieldRange .tail t)
  else .ok ((reg &&& ~~~tailMask) ||| (BitVec.ofNat 64 t <<< 8))

/-- CSR.EN as a bit: csr[63] (41 R104). -/
def enBit (csr : Word) : Bool := csr.getLsbD 63

/-- CSR.EN: 0 or 1 (41 R104). -/
def csrEn (csr : Word) : Nat := (enBit csr).toNat

/-- CSR.VALID as a field: csr[62:0] (41 R105). -/
def validField (csr : Word) : BitVec 63 := csr.extractLsb' 0 63

/-- CSR.VALID (41 R105). -/
def csrValid (csr : Word) : Nat := (validField csr).toNat

/-- CSR.MAKE (41 R106). A fault records the value that does not fit (60 R141), en being checked before valid
(60 R145; log entry 18). -/
def csrMake (en valid : Nat) : Except Fault Word :=
  if en > 1 then .error (.fieldRange .csr en)
  else if valid ≥ 2 ^ 63 then .error (.fieldRange .csr valid)
  else .ok ((BitVec.ofNat 64 en <<< 63) ||| BitVec.ofNat 64 valid)

/-- MODCAP: one conditional subtraction (42 R107). -/
def modCap (c v : Nat) : Except Fault Nat :=
  if v ≥ 2 * c then .error (.arithRange .modCap [v])
  else if v ≥ c then .ok (v - c)
  else .ok v

/-- ADV: advance an index by one slot (42 R108). -/
def adv (c i : Nat) : Except Fault Nat :=
  if i ≥ c then .error (.arithRange .adv [i]) else modCap c (i + 1)

/-- USED: occupancy; head is checked before tail (42 R109; 60 R145). -/
def used (c head tail : Nat) : Except Fault Nat :=
  if head ≥ c then .error (.arithRange .used [head, tail])
  else if tail ≥ c then .error (.arithRange .used [head, tail])
  else modCap c (tail + c - head)

/-- FREE: free slots (42 R110). -/
def free (c head tail : Nat) : Except Fault Nat :=
  match used c head tail with
  | .ok u => .ok (c - 1 - u)
  | .error f => .error f

/-- DEPTH and DRAIN_MAX, C - 1 (00 R8, R9). -/
def drainMax (c : Nat) : Nat := c - 1

end Sys2Proof.Machine
end

