-- ==== Sys2Proof/Machine/Codec.lean ====
section
/-! DEFINITION. The meanings of the seven codec functions (41 R100 to R106). A register value that a function
returns is answered as the unsigned number it is (30 R70: one unsigned value results). -/

namespace Sys2Proof.Machine

/-- The unsigned number of a function's 64-bit result (30 R70). -/
def wordValue (r : Except Fault Word) : Except Fault Nat :=
  match r with
  | .ok w => .ok w.toNat
  | .error f => .error f

/-- HEAD.GET (41 R100). -/
def execHeadGet (p : Port) (reg : Word) (s : State) : Host.Outcome State Fault Refusal :=
  answerValue p (.ok (headGet reg)) s

/-- TAIL.GET (41 R101). -/
def execTailGet (p : Port) (reg : Word) (s : State) : Host.Outcome State Fault Refusal :=
  answerValue p (.ok (tailGet reg)) s

/-- HEAD.PACK (41 R102). -/
def execHeadPack (p : Port) (reg : Word) (h : Nat) (s : State) : Host.Outcome State Fault Refusal :=
  answerValue p (wordValue (headPack s.cap reg h)) s

/-- TAIL.PACK (41 R103). -/
def execTailPack (p : Port) (reg : Word) (t : Nat) (s : State) : Host.Outcome State Fault Refusal :=
  answerValue p (wordValue (tailPack s.cap reg t)) s

/-- CSR.EN (41 R104). -/
def execCsrEn (p : Port) (csr : Word) (s : State) : Host.Outcome State Fault Refusal :=
  answerValue p (.ok (csrEn csr)) s

/-- CSR.VALID (41 R105). -/
def execCsrValid (p : Port) (csr : Word) (s : State) : Host.Outcome State Fault Refusal :=
  answerValue p (.ok (csrValid csr)) s

/-- CSR.MAKE (41 R106). -/
def execCsrMake (p : Port) (en valid : Nat) (s : State) : Host.Outcome State Fault Refusal :=
  answerValue p (wordValue (csrMake en valid)) s

end Sys2Proof.Machine
end

