-- ==== Sys2Proof/Machine/Pointer.lean ====
section
/-! DEFINITION. The meanings of the four pointer functions (42 R107 to R110). -/

namespace Sys2Proof.Machine

/-- MODCAP (42 R107). -/
def execModCap (p : Port) (v : Nat) (s : State) : Host.Outcome State Fault Refusal :=
  answerValue p (modCap s.cap v) s

/-- ADV (42 R108). -/
def execAdv (p : Port) (i : Nat) (s : State) : Host.Outcome State Fault Refusal :=
  answerValue p (adv s.cap i) s

/-- USED (42 R109). -/
def execUsed (p : Port) (head tail : Nat) (s : State) : Host.Outcome State Fault Refusal :=
  answerValue p (used s.cap head tail) s

/-- FREE (42 R110). -/
def execFree (p : Port) (head tail : Nat) (s : State) : Host.Outcome State Fault Refusal :=
  answerValue p (free s.cap head tail) s

end Sys2Proof.Machine
end

