-- ==== Sys2Proof/Machine/Window.lean ====
section
/-! DEFINITION. The meanings of the twelve BUS operations (40 R85 to R96), each one access of the accessor at its
window index, answered to the direct agent of the port that issues it. -/

namespace Sys2Proof.Machine

/-- RD.TXSLOT (40 R85). -/
def execRdTxSlot (p : Port) (i : BitVec 7) (s : State) : Host.Outcome State Fault Refusal :=
  answerRead p (memRead s p i.toNat) s

/-- WR.TXSLOT (40 R86). -/
def execWrTxSlot (p : Port) (i : BitVec 7) (v : Word) (s : State) : Host.Outcome State Fault Refusal :=
  answerWrite p (memWrite s p i.toNat v) s

/-- RD.TXIR (40 R87). -/
def execRdTxIr (p : Port) (s : State) : Host.Outcome State Fault Refusal :=
  answerRead p (memRead s p Config.txIr) s

/-- WR.TXIR (40 R88). -/
def execWrTxIr (p : Port) (v : Word) (s : State) : Host.Outcome State Fault Refusal :=
  answerWrite p (memWrite s p Config.txIr v) s

/-- RD.TXCSR (40 R90). -/
def execRdTxCsr (p : Port) (s : State) : Host.Outcome State Fault Refusal :=
  answerRead p (memRead s p Config.txCsr) s

/-- WR.TXCSR, the doorbell (40 R89). -/
def execWrTxCsr (p : Port) (v : Word) (s : State) : Host.Outcome State Fault Refusal :=
  answerWrite p (memWrite s p Config.txCsr v) s

/-- RD.RXSLOT (40 R91). -/
def execRdRxSlot (p : Port) (i : BitVec 7) (s : State) : Host.Outcome State Fault Refusal :=
  answerRead p (memRead s p i.toNat) s

/-- WR.RXSLOT (40 R92). -/
def execWrRxSlot (p : Port) (i : BitVec 7) (v : Word) (s : State) : Host.Outcome State Fault Refusal :=
  answerWrite p (memWrite s p i.toNat v) s

/-- RD.RXIR (40 R93). -/
def execRdRxIr (p : Port) (s : State) : Host.Outcome State Fault Refusal :=
  answerRead p (memRead s p Config.rxIr) s

/-- WR.RXIR (40 R94). -/
def execWrRxIr (p : Port) (v : Word) (s : State) : Host.Outcome State Fault Refusal :=
  answerWrite p (memWrite s p Config.rxIr v) s

/-- RD.RXCSR (40 R95). -/
def execRdRxCsr (p : Port) (s : State) : Host.Outcome State Fault Refusal :=
  answerRead p (memRead s p Config.rxCsr) s

/-- WR.RXCSR: arm, re-arm and acknowledge (40 R96). -/
def execWrRxCsr (p : Port) (v : Word) (s : State) : Host.Outcome State Fault Refusal :=
  answerWrite p (memWrite s p Config.rxCsr v) s

end Sys2Proof.Machine
end

