-- ==== Sys2Proof/Machine/Dispatch.lean ====
section
/-! DEFINITION. One arm per operation: the meaning it calls. -/

namespace Sys2Proof.Machine

def exec (i : Instr) (s : State) : Host.Outcome State Fault Refusal :=
  match i with
  -- BUS (30 R73)
  | .rdTxSlot p idx => Sys2Proof.Machine.execRdTxSlot p idx s
  | .wrTxSlot p idx v => Sys2Proof.Machine.execWrTxSlot p idx v s
  | .rdTxIr p => Sys2Proof.Machine.execRdTxIr p s
  | .wrTxIr p v => Sys2Proof.Machine.execWrTxIr p v s
  | .rdTxCsr p => Sys2Proof.Machine.execRdTxCsr p s
  | .wrTxCsr p v => Sys2Proof.Machine.execWrTxCsr p v s
  | .rdRxSlot p idx => Sys2Proof.Machine.execRdRxSlot p idx s
  | .wrRxSlot p idx v => Sys2Proof.Machine.execWrRxSlot p idx v s
  | .rdRxIr p => Sys2Proof.Machine.execRdRxIr p s
  | .wrRxIr p v => Sys2Proof.Machine.execWrRxIr p v s
  | .rdRxCsr p => Sys2Proof.Machine.execRdRxCsr p s
  | .wrRxCsr p v => Sys2Proof.Machine.execWrRxCsr p v s
  -- FUNC (30 R74)
  | .headGet p reg => Sys2Proof.Machine.execHeadGet p reg s
  | .tailGet p reg => Sys2Proof.Machine.execTailGet p reg s
  | .headPack p reg h => Sys2Proof.Machine.execHeadPack p reg h s
  | .tailPack p reg t => Sys2Proof.Machine.execTailPack p reg t s
  | .csrEn p csr => Sys2Proof.Machine.execCsrEn p csr s
  | .csrValid p csr => Sys2Proof.Machine.execCsrValid p csr s
  | .csrMake p en valid => Sys2Proof.Machine.execCsrMake p en valid s
  | .modCap p v => Sys2Proof.Machine.execModCap p v s
  | .adv p k => Sys2Proof.Machine.execAdv p k s
  | .used p head tail => Sys2Proof.Machine.execUsed p head tail s
  | .free p head tail => Sys2Proof.Machine.execFree p head tail s

end Sys2Proof.Machine
end

