-- ==== Sys2Proof/Machine/Flags.lean ====
section
/-! DEFINITION. The block has no flags or condition codes (10 R44). Its one computed status bit is the interrupt
output IRQ[p] (10 R30), the interrupt arbiter of 60 R155. -/

namespace Sys2Proof.Machine

/-- The arbiter for a given value of VALID_GATES_IRQ (60 R155). -/
def irqWith (validGates : Bool) (P : PortState) : Bool :=
  enBit P.rxcsr && P.pend && (!validGates || decide (validField P.rxcsr ≠ 0))

/-- IRQ[p] (60 R155). -/
def irq (s : State) (p : Port) : Bool := irqWith Config.validGatesIrq (portOf s p)

/-- Whether the platform may invoke port p's handler now, for given values of the open parameters (60 R158). -/
def mayDeliverWith (validGates spurious : Bool) (P : PortState) : Bool :=
  !P.inh && P.initDone && (irqWith validGates P || spurious)

/-- Whether the platform may invoke port p's handler now (60 R158). -/
def mayDeliver (s : State) (p : Port) : Bool :=
  mayDeliverWith Config.validGatesIrq Config.spuriousDelivery (portOf s p)

end Sys2Proof.Machine
end

