-- ==== Sys2Proof/Machine/Sequences.lean ====
section
/-! DEFINITION. The reference sequences INIT, DRAIN and SEND (43 R120 to R136), one function per label. A step is
one label, with at most one access event (43 R113). A step that faults ends its agent where it stands; the handler's
INH and LOCK are left as they are (60 R142, R161). -/

namespace Sys2Proof.Machine

/-- A read access by agent `ag`, and what the sequence does with the value. -/
def seqRead (ag : Agent) (i : Nat) (s : State) (k : Word → State) : State :=
  match memRead s ag.port i with
  | .ok w => k w
  | .error f => raiseFault ag f s

/-- A write access by agent `ag`, and what the sequence does after it. -/
def seqWrite (ag : Agent) (i : Nat) (v : Word) (s : State) (k : State → State) : State :=
  match memWrite s ag.port i v with
  | .ok s' => k s'
  | .error st => stopWith ag st s

/-- A function evaluated by agent `ag`, and what the sequence does with its value. -/
def seqFunc {α : Type} (ag : Agent) (res : Except Fault α) (s : State) (k : α → State) : State :=
  match res with
  | .ok v => k v
  | .error f => raiseFault ag f s

/-- DRAIN at `d` on port `p`. -/
def setDrain (p : Port) (d : Drain) (s : State) : State := modPort s p fun P => { P with drain := some d }

/-- The ordinary context of port `p` at `c`. -/
def setCaller (p : Port) (c : Caller) (s : State) : State := modPort s p fun P => { P with caller := c }

/-- LOCK[p] (10 R38). -/
def setLock (p : Port) (l : Lock) (s : State) : State := modPort s p fun P => { P with lock := l }

/-! INIT. -/

/-- I1: program RX_CSR with enable and the whole mask, and return: INIT has completed (43 R120). -/
def initI1 (p : Port) (s : State) : State :=
  seqFunc ⟨p, .caller⟩ (csrMake 1 validMask.toNat) s fun w =>
    seqWrite ⟨p, .caller⟩ Config.rxCsr w s fun s' =>
      modPort s' p fun P => { P with caller := .idle, initDone := true }

/-! DRAIN. -/

/-- D1: acquire the lock; wait while it is held (43 R121). -/
def drainD1 (p : Port) (d : Drain) (s : State) : State :=
  match (portOf s p).lock with
  | .held => s
  | .free => setDrain p { d with pos := .d2Read } (setLock p .held s)

/-- D2: snapshot the receive CSR (43 R122). -/
def drainD2Read (p : Port) (d : Drain) (s : State) : State :=
  seqRead ⟨p, .handler⟩ Config.rxCsr s fun w =>
    setDrain p { d with c := w, valid := validField w, pos := .d2Write } s

/-- D2: write back validBits | enable (43 R122). -/
def drainD2Write (p : Port) (d : Drain) (s : State) : State :=
  seqFunc ⟨p, .handler⟩ (csrMake 1 d.valid.toNat) s fun w =>
    seqWrite ⟨p, .handler⟩ Config.rxCsr w s fun s' => setDrain p { d with pos := .d3Rx } s'

/-- D3: the peer's tail from the receive IR (43 R123). -/
def drainD3Rx (p : Port) (d : Drain) (s : State) : State :=
  seqRead ⟨p, .handler⟩ Config.rxIr s fun w =>
    setDrain p { d with rir := w, tail := tailGet w, pos := .d3Tx } s

/-- D3: this side's head from the send IR; the count starts at 0 (43 R123). -/
def drainD3Tx (p : Port) (d : Drain) (s : State) : State :=
  seqRead ⟨p, .handler⟩ Config.txIr s fun w =>
    setDrain p { d with sir := w, head := headGet w, n := 0, buf := [], pos := .d4 } s

/-- D4: while head ≠ tail, check the bound, then read one slot into the buffer (43 R124, R125; 60 R145). -/
def drainD4 (p : Port) (d : Drain) (s : State) : State :=
  if d.head = d.tail then setDrain p { d with pos := .d5Read } s
  else if d.n = drainMax s.cap then raiseFault ⟨p, .handler⟩ (.drainOverrun p) s
  else
    seqRead ⟨p, .handler⟩ (Config.rxBase + d.head) s fun w =>
      setDrain p { d with buf := d.buf ++ [w], n := d.n + 1, pos := .d4Adv } s

/-- D4: head <- ADV(head) (43 R124). -/
def drainD4Adv (p : Port) (d : Drain) (s : State) : State :=
  seqFunc ⟨p, .handler⟩ (adv s.cap d.head) s fun h => setDrain p { d with head := h, pos := .d4 } s

/-- D5: read the send IR afresh (43 R126). -/
def drainD5Read (p : Port) (d : Drain) (s : State) : State :=
  seqRead ⟨p, .handler⟩ Config.txIr s fun w => setDrain p { d with r := w, pos := .d5Write } s

/-- D5: publish head into HEAD, bits 7:0 (43 R126; 90 C2). -/
def drainD5Write (p : Port) (d : Drain) (s : State) : State :=
  seqFunc ⟨p, .handler⟩ (headPack s.cap d.r d.head) s fun w =>
    seqWrite ⟨p, .handler⟩ Config.txIr w s fun s' => setDrain p { d with pos := .d6 } s'

/-- D6: release the lock (43 R127). -/
def drainD6 (p : Port) (d : Drain) (s : State) : State := setDrain p { d with pos := .d7 } (setLock p .free s)

/-- D7: the platform answers `status`; 0 returns from the handler, anything else faults (43 R128). -/
def drainD7 (p : Port) (status : Word) (s : State) : State :=
  if status ≠ 0 then raiseFault ⟨p, .handler⟩ (.ackFail p status) s else returnFromInterrupt p s

/-- The next step of an active DRAIN. At D7 it waits for the platform's answer (43 R128). -/
def drainStep (p : Port) (d : Drain) (s : State) : State :=
  match d.pos with
  | .d1 => drainD1 p d s
  | .d2Read => drainD2Read p d s
  | .d2Write => drainD2Write p d s
  | .d3Rx => drainD3Rx p d s
  | .d3Tx => drainD3Tx p d s
  | .d4 => drainD4 p d s
  | .d4Adv => drainD4Adv p d s
  | .d5Read => drainD5Read p d s
  | .d5Write => drainD5Write p d s
  | .d6 => drainD6 p d s
  | .d7 => s

/-! SEND. -/

/-- SEND on port `p` at `x`. -/
def setSend (p : Port) (x : Send) (s : State) : State := setCaller p (.send x) s

/-- S0: an empty input returns with no access (43 R130). -/
def sendS0 (p : Port) (x : Send) (s : State) : State :=
  match x.words with
  | [] => setCaller p .idle s
  | _ :: _ => setSend p { x with sent := 0, pos := .saTx } s

/-- Sa: this side's tail from the send IR (43 R131; 90 C3). -/
def sendSaTx (p : Port) (x : Send) (s : State) : State :=
  seqRead ⟨p, .caller⟩ Config.txIr s fun w => setSend p { x with sir := w, tail := tailGet w, pos := .saRx } s

/-- Sa: the peer's head from the receive IR (43 R131; 90 C3). -/
def sendSaRx (p : Port) (x : Send) (s : State) : State :=
  seqRead ⟨p, .caller⟩ Config.rxIr s fun w => setSend p { x with rir := w, head := headGet w, pos := .sb } s

/-- Sb: used and free (43 R132). -/
def sendSb (p : Port) (x : Send) (s : State) : State :=
  seqFunc ⟨p, .caller⟩ (used s.cap x.head x.tail) s fun u =>
    setSend p { x with used := u, free := s.cap - 1 - u, pos := .sc } s

/-- Sc: poll while nothing is free (43 R132). -/
def sendSc (p : Port) (x : Send) (s : State) : State :=
  if x.free = 0 then setSend p { x with pos := .saTx } s else setSend p { x with pos := .sdCount } s

/-- Sd: how many words this pass writes (43 R133). -/
def sendSdCount (p : Port) (x : Send) (s : State) : State :=
  setSend p { x with k := min x.free (x.words.length - x.sent), j := 0, pos := .sdWrite } s

/-- Sd: for j below k, write one word into the next slot (43 R133). A missing word cannot occur in a reachable
state (k is at most what remains); the step then stays where it is. -/
def sendSdWrite (p : Port) (x : Send) (s : State) : State :=
  if x.j < x.k then
    match x.words[x.sent + x.j]? with
    | some w =>
      seqWrite ⟨p, .caller⟩ (Config.txBase + x.tail) w s fun s' => setSend p { x with pos := .sdAdv } s'
    | none => s
  else setSend p { x with pos := .seRead } s

/-- Sd: tail <- ADV(tail) (43 R133). -/
def sendSdAdv (p : Port) (x : Send) (s : State) : State :=
  seqFunc ⟨p, .caller⟩ (adv s.cap x.tail) s fun t => setSend p { x with tail := t, j := x.j + 1, pos := .sdWrite } s

/-- Se: read the send IR afresh (43 R134). -/
def sendSeRead (p : Port) (x : Send) (s : State) : State :=
  seqRead ⟨p, .caller⟩ Config.txIr s fun w => setSend p { x with r := w, pos := .seWrite } s

/-- Se: publish tail into TAIL, bits 15:8 (43 R134). -/
def sendSeWrite (p : Port) (x : Send) (s : State) : State :=
  seqFunc ⟨p, .caller⟩ (tailPack s.cap x.r x.tail) s fun w =>
    seqWrite ⟨p, .caller⟩ Config.txIr w s fun s' => setSend p { x with pos := .sf } s'

/-- Sf: ring the doorbell (43 R135). -/
def sendSf (p : Port) (x : Send) (s : State) : State :=
  seqWrite ⟨p, .caller⟩ Config.txCsr Config.doorbell s fun s' => setSend p { x with pos := .sg } s'

/-- Sg: advance the sent count; repeat or return (43 R136). -/
def sendSg (p : Port) (x : Send) (s : State) : State :=
  if x.sent + x.k < x.words.length then setSend p { x with sent := x.sent + x.k, pos := .saTx } s
  else setCaller p .idle s

/-- The next step of an active SEND. -/
def sendStep (p : Port) (x : Send) (s : State) : State :=
  match x.pos with
  | .s0 => sendS0 p x s
  | .saTx => sendSaTx p x s
  | .saRx => sendSaRx p x s
  | .sb => sendSb p x s
  | .sc => sendSc p x s
  | .sdCount => sendSdCount p x s
  | .sdWrite => sendSdWrite p x s
  | .sdAdv => sendSdAdv p x s
  | .seRead => sendSeRead p x s
  | .seWrite => sendSeWrite p x s
  | .sf => sendSf p x s
  | .sg => sendSg p x s

/-! The two contexts of a port. -/

/-- The handler of port `p` performs its next step, if DRAIN is active and has not faulted (43 R113; 60 R142). -/
def handlerStep (p : Port) (s : State) : State :=
  if (portOf s p).handlerEnded then s
  else
    match (portOf s p).drain with
    | some d => drainStep p d s
    | none => s

/-- The ordinary context of port `p` performs its next step, if it has not faulted (60 R142) and the handler is
not active (43 R115; log entry 8). -/
def callerStep (p : Port) (s : State) : State :=
  if (portOf s p).callerEnded || (portOf s p).inh then s
  else
    match (portOf s p).caller with
    | .idle => s
    | .init => initI1 p s
    | .send x => sendStep p x s

end Sys2Proof.Machine
end

