-- ==== Sys2Proof/Machine/Platform.lean ====
section
/-! DEFINITION. What the platform, the host bus and the callers of a port do (43 R116, R117; 60 R158; 20 R50 to R53;
70 R169). An input that would break a duty of the platform or caller (43 R117) is not taken: the state stays as it
is (log entry 2). -/

namespace Sys2Proof.Machine

/-- The platform calls onInit: once, first, and not while the handler runs (43 R117; 70 R173). -/
def startInit (p : Port) (s : State) : State :=
  let P := portOf s p
  if P.initDone || P.inh || P.callerEnded then s
  else
    match P.caller with
    | .idle => setCaller p .init s
    | .init => s
    | .send _ => s

/-- A caller calls send(words): after INIT, from the ordinary context; a second SEND while one is active is refused
(43 R117, R138; 70 R173). -/
def startSend (p : Port) (words : List Word) (s : State) : State :=
  let P := portOf s p
  if P.callerEnded then s
  else
    match P.caller with
    | .send _ => refuse .concurrentSend s
    | .init => s
    | .idle => if P.initDone && !P.inh then setSend p (Send.start words) s else s

/-- The platform invokes the handler, where it may (60 R158, R161). -/
def deliver (p : Port) (s : State) : State := if mayDeliver s p then takeInterrupt p s else s

/-- The platform answers DRAIN's acknowledgement; taken only while DRAIN waits at D7 (43 R128). -/
def acknowledge (p : Port) (status : Word) (s : State) : State :=
  if (portOf s p).handlerEnded then s
  else
    match (portOf s p).drain with
    | some d => if d.pos = .d7 then drainD7 p status s else s
    | none => s

/-- The window index of a host access, if it is 8 bytes at WINDOW_BASE + 8 i with i below 128 (20 R50, R52, R53). -/
def hostIndexWith (base addr size : Nat) : Option Nat :=
  if size = 8 ∧ base ≤ addr ∧ (addr - base) % 8 = 0 ∧ (addr - base) / 8 < Config.ncells then
    some ((addr - base) / 8)
  else none

/-- `hostIndexWith` at this machine's WINDOW_BASE. -/
def hostIndex (addr size : Nat) : Option Nat := hostIndexWith Config.windowBase addr size

/-- A host read through port `p`; any access but an aligned 8-byte one to a cell is refused (20 R52, R53). -/
def hostRead (p : Port) (addr size : Nat) (s : State) : Host.Outcome State Fault Refusal :=
  match hostIndex addr size with
  | some i => answerRead p (memRead s p i) s
  | none => .next (refuse .subword s)

/-- A host write through port `p` (20 R52, R53). -/
def hostWrite (p : Port) (addr size : Nat) (v : Word) (s : State) : Host.Outcome State Fault Refusal :=
  match hostIndex addr size with
  | some i => answerWrite p (memWrite s p i v) s
  | none => .next (refuse .subword s)

/-- One port at a reset event: block registers, platform state and sequences (70 R170; 92 D14). Ended agents stay
ended, as the fault record stays (10 R40; 60 R142; log entry 7). -/
def resetPort (P : PortState) : PortState :=
  { P with txcsr := 0, rxcsr := 0, pend := false, lock := .free, inh := false, initDone := false, caller := .idle,
           drain := none }

/-- The reset event, on both ports at once (70 R169). -/
def resetEvent (s : State) : State := { s with phys := [], a := resetPort s.a, b := resetPort s.b }

end Sys2Proof.Machine
end

