-- ==== Sys2Proof/Machine/Perform.lean ====
section
/-! DEFINITION. Performing one input of the outside: fetching an operation in encoded form and running it, or one
call, delivery or step of a sequence. -/

namespace Sys2Proof.Machine

/-- Perform one operation in encoded form: decode it and run its meaning, or raise FAULT_ILLEGAL_OP (30 R75, R76). -/
def performRequest (r : Request) (s : State) : Host.Outcome State Fault Refusal :=
  match decode r with
  | .ok i => exec i s
  | .error (.illegal opw) => .next (raiseFault ⟨r.port, .direct⟩ (.illegalOp opw) s)

/-- What the direct agent of `p` does, if it has not faulted (60 R142). -/
def byDirect (p : Port) (s : State) (o : Host.Outcome State Fault Refusal) : Host.Outcome State Fault Refusal :=
  if (portOf s p).directEnded then .next s else o

/-- Perform one input. -/
def perform (e : Input) (s : State) : Host.Outcome State Fault Refusal :=
  match e with
  | .issue r => byDirect r.port s (performRequest r s)
  | .callRead p i => byDirect p s (answerRead p (memRead s p i) s)
  | .callWrite p i v => byDirect p s (answerWrite p (memWrite s p i v) s)
  | .hostRead p addr size => byDirect p s (hostRead p addr size s)
  | .hostWrite p addr size v => byDirect p s (hostWrite p addr size v s)
  | .init p => .next (startInit p s)
  | .send p words => .next (startSend p words s)
  | .interrupt p => .next (deliver p s)
  | .caller p => .next (callerStep p s)
  | .handler p => .next (handlerStep p s)
  | .ack p status => .next (acknowledge p status s)
  | .reset => .next (resetEvent s)

/-- Place a request where the next step takes its input, with the port's direct agent able to act. -/
def placeRequest (r : Request) (s : State) : State :=
  let s' := modPort s r.port fun P => { P with directEnded := false }
  { s' with inputs := .issue r :: s.inputs }

end Sys2Proof.Machine
end

