-- ==== Sys2Proof/Machine/Step.lean ====
section
/-! DEFINITION. One step: the oldest input of the outside is taken and performed. With no input nothing acts on the
block, and it stays as it is (10 R43: it executes no program). -/

namespace Sys2Proof.Machine

/-- One step of the machine: one point of the total order of 20 R60. -/
def step (s : State) : Host.Outcome State Fault Refusal :=
  match s.inputs with
  | [] => .next s
  | e :: rest => perform e { s with inputs := rest }

/-- The operation of table word `w`, issued by port A's direct agent, as the next input (log entry 10). -/
def State.withFetchWord (s : State) (_nbits w : Nat) : State := placeRequest (tableRequest w) s

end Sys2Proof.Machine
end

