-- ==== Sys2Proof/Safety.lean ====
section
/-! DEFINITION. The terms claims are made in: the end of a run (43 R139), the invariant every step keeps, the ring
invariant that the reference sequences keep (10 R31; 70 R172), the inputs that keep to the discipline (10 R46), and
the fairness a liveness claim assumes (60 R158; 43 R117). -/

namespace Sys2Proof.Safety

open Sys2Proof.Machine

/-- IR_p (10 R31). -/
def irOf (s : State) (p : Port) : Word := readCell s.phys (physIndex p Config.txIr)

/-- No sequence is active on a port: no INIT, no open send call, no DRAIN (43 R139). -/
def idlePort (P : PortState) : Bool := decide (P.caller = .idle) && !P.inh && P.drain.isNone

/-- The end of a run (43 R139). -/
def atEnd (s : State) : Bool :=
  s.fault.isNone && s.refusal.isNone && idlePort s.a && idlePort s.b && !irq s .a && !irq s .b

/-- The run is faulted (60 R146). -/
def faulted (s : State) : Bool := s.fault.isSome

/-- The run is refused (60 R147). -/
def refused (s : State) : Bool := s.refusal.isSome

/-- An interrupt delivery is owed to port `p`: IRQ[p] = 1, INH[p] = 0 and INIT on p has completed (60 R158; 92 D12). -/
def deliveryOwed (s : State) (p : Port) : Bool := irq s p && !(portOf s p).inh && (portOf s p).initDone

/-- A grant of the free lock is owed to port `p`: DRAIN waits at D1, has not faulted, and LOCK[p] is free
(43 R117, R121). -/
def lockOwed (s : State) (p : Port) : Bool :=
  match (portOf s p).drain with
  | none => false
  | some d => decide (d.pos = .d1) && decide ((portOf s p).lock = .free) && !(portOf s p).handlerEnded

/-- What is owed on a run is not owed forever: weak fairness (70 R185). -/
def NotOwedForever (owed : State → Bool) (run : Nat → State) : Prop := ∀ n, ∃ m, n ≤ m ∧ owed (run m) = false

/-- Weak fairness of delivery on a run, a premise of a liveness claim (60 R158; 92 D12). -/
def WeaklyFairDelivery (run : Nat → State) (p : Port) : Prop := NotOwedForever (fun s => deliveryOwed s p) run

/-- Weak fairness of lock grant on a run, a premise of a liveness claim (43 R117; 92 D27). -/
def WeaklyFairLock (run : Nat → State) (p : Port) : Prop := NotOwedForever (fun s => lockOwed s p) run

/-- The cell of ring slot `i` in the send window of port `p` (40 R85, R86), `i` ≤ 61. -/
def sendSlotCell (p : Port) (i : Nat) : Nat :=
  match p with
  | .a => i
  | .b => 64 + i

/-- The cell of window index `i` in the receive slots of port `p` (40 R91, R92), 64 ≤ `i` ≤ 125. -/
def recvSlotCell (p : Port) (i : Nat) : Nat :=
  match p with
  | .a => i
  | .b => i - 64

/-- The cell of IR_p (10 R31). -/
def irCell (p : Port) : Nat :=
  match p with
  | .a => 62
  | .b => 126

/-- `t` is `s` with cell `k` holding `v`: every other cell reads as before and nothing else is changed. -/
def StoresOnly (s t : State) (k : Nat) (v : Word) : Prop :=
  readCell t.phys k = v ∧ (∀ k', k' ≠ k → readCell t.phys k' = readCell s.phys k') ∧ t = { s with phys := t.phys }

/-- `s` with `w` delivered as RDATA to port `p`'s direct agent: nothing else is changed. -/
def deliversWord (s : State) (p : Port) (w : Word) : State := modPort s p fun P => { P with rdata := w }

/-- `s` with `v` returned as a function's value to port `p`'s direct agent: nothing else is changed. -/
def returnsValue (s : State) (p : Port) (v : Nat) : State := modPort s p fun P => { P with fval := v }

/-- ADV applied `n` times to `i` (42 R111). -/
def advTimes (c i : Nat) : Nat → Except Fault Nat
  | 0 => .ok i
  | n + 1 =>
    match advTimes c i n with
    | .ok j => adv c j
    | .error f => .error f

/-- The registers of the block itself, which an operation without its effect leaves alone (60 R143, R147). -/
def SameBlock (s t : State) : Prop :=
  t.phys = s.phys ∧ ∀ p, (portOf t p).txcsr = (portOf s p).txcsr ∧ (portOf t p).rxcsr = (portOf s p).rxcsr ∧
    (portOf t p).pend = (portOf s p).pend

/-- The port an input acts for; none for the reset event, which acts on both. -/
def actsFor : Input → Option Port
  | .issue r => some r.port
  | .callRead p _ => some p
  | .callWrite p _ _ => some p
  | .hostRead p _ _ => some p
  | .hostWrite p _ _ _ => some p
  | .init p => some p
  | .send p _ => some p
  | .interrupt p => some p
  | .caller p => some p
  | .handler p => some p
  | .ack p _ => some p
  | .reset => none

/-! The write access an input performs, if it performs one: window index and value. -/

/-- A write of a function's value at index `i`; none where the function faults, since it then precedes no access. -/
def valueWrite (i : Nat) (r : Except Fault Word) : Option (Nat × Word) :=
  match r with
  | .ok w => some (i, w)
  | .error _ => none

/-- The BUS write words are 0x080 + IDX (30 R69, R73). -/
def requestWrite (r : Request) : Option (Nat × Word) :=
  if 0x080 ≤ r.opw.toNat ∧ r.opw.toNat ≤ 0x0FF then some (r.opw.toNat - 0x080, r.word) else none

/-- The write of DRAIN's next step: the re-arm of D2 and the publish of D5 (43 R122, R126). -/
def drainWrite (c : Nat) (d : Drain) : Option (Nat × Word) :=
  match d.pos with
  | .d1 => none
  | .d2Read => none
  | .d2Write => valueWrite Config.rxCsr (csrMake 1 d.valid.toNat)
  | .d3Rx => none
  | .d3Tx => none
  | .d4 => none
  | .d4Adv => none
  | .d5Read => none
  | .d5Write => valueWrite Config.txIr (headPack c d.r d.head)
  | .d6 => none
  | .d7 => none

/-- The write of SEND's next step: a slot of Sd, the publish of Se, the doorbell of Sf (43 R133 to R135). -/
def sendWrite (c : Nat) (x : Send) : Option (Nat × Word) :=
  match x.pos with
  | .s0 => none
  | .saTx => none
  | .saRx => none
  | .sb => none
  | .sc => none
  | .sdCount => none
  | .sdWrite => if x.j < x.k then x.words[x.sent + x.j]?.map fun w => (Config.txBase + x.tail, w) else none
  | .sdAdv => none
  | .seRead => none
  | .seWrite => valueWrite Config.txIr (tailPack c x.r x.tail)
  | .sf => some (Config.txCsr, Config.doorbell)
  | .sg => none

/-- The write of the ordinary context's next step, if it has not faulted and the handler is not active: I1's arming of
RX_CSR, or SEND's (43 R120). -/
def callerWrite (c : Nat) (P : PortState) : Option (Nat × Word) :=
  if P.callerEnded || P.inh then none
  else
    match P.caller with
    | .idle => none
    | .init => valueWrite Config.rxCsr (csrMake 1 validMask.toNat)
    | .send x => sendWrite c x

/-- The write of the handler's next step, if it has not faulted. -/
def handlerWrite (c : Nat) (P : PortState) : Option (Nat × Word) :=
  if P.handlerEnded then none
  else
    match P.drain with
    | none => none
    | some d => drainWrite c d

/-- A write of the direct agent, if it has not faulted. -/
def directWrite (P : PortState) (w : Option (Nat × Word)) : Option (Nat × Word) := if P.directEnded then none else w

/-- The write access that performing `e` in `s` makes, through the port `e` acts for: window index and value. A host
access that is no cell's makes none. An index of 128 or more, and a value other than DOORBELL at TX_CSR, are written
here as they are given, though the block then stops the access (40 R84, R89). -/
def writeAccess (s : State) : Input → Option (Nat × Word)
  | .issue r => directWrite (portOf s r.port) (requestWrite r)
  | .callRead _ _ => none
  | .callWrite p i v => directWrite (portOf s p) (some (i, v))
  | .hostRead _ _ _ => none
  | .hostWrite p addr size v => directWrite (portOf s p) ((hostIndex addr size).map fun i => (i, v))
  | .init _ => none
  | .send _ _ => none
  | .interrupt _ => none
  | .caller p => callerWrite s.cap (portOf s p)
  | .handler p => handlerWrite s.cap (portOf s p)
  | .ack _ _ => none
  | .reset => none

/-- Performing `e` in `s` rings the doorbell of port `p`: it acts for `p` and writes DOORBELL to TX_CSR (40 R89). -/
def Rings (s : State) (e : Input) (p : Port) : Prop :=
  actsFor e = some p ∧ writeAccess s e = some (63, 0xFFFFFFFFFFFFFFFF)

/-- Performing `e` in `s` writes `v` to RXCSR[p]: it acts for `p` and writes window index 127 (40 R96). -/
def Arms (s : State) (e : Input) (p : Port) (v : Word) : Prop :=
  actsFor e = some p ∧ writeAccess s e = some (127, v)

/-- The agent an input is an action of, where it is one's own action; an interrupt and the reset event are not. -/
def agentOf : Input → Option Agent
  | .issue r => some ⟨r.port, .direct⟩
  | .callRead p _ => some ⟨p, .direct⟩
  | .callWrite p _ _ => some ⟨p, .direct⟩
  | .hostRead p _ _ => some ⟨p, .direct⟩
  | .hostWrite p _ _ _ => some ⟨p, .direct⟩
  | .init p => some ⟨p, .caller⟩
  | .send p _ => some ⟨p, .caller⟩
  | .interrupt _ => none
  | .caller p => some ⟨p, .caller⟩
  | .handler p => some ⟨p, .handler⟩
  | .ack p _ => some ⟨p, .handler⟩
  | .reset => none

/-- The agent has faulted (60 R142). -/
def ended (s : State) (ag : Agent) : Bool :=
  match ag.ctx with
  | .direct => (portOf s ag.port).directEnded
  | .caller => (portOf s ag.port).callerEnded
  | .handler => (portOf s ag.port).handlerEnded

/-! The invariant every step keeps. -/

/-- The lock is held from the end of D1 to D6 (10 R38; 43 R121, R127). -/
def holdsLock : DrainPos → Bool
  | .d1 => false
  | .d2Read => true
  | .d2Write => true
  | .d3Rx => true
  | .d3Tx => true
  | .d4 => true
  | .d4Adv => true
  | .d5Read => true
  | .d5Write => true
  | .d6 => true
  | .d7 => false

/-- What holds of SEND's locals at each label (43 R130 to R136): a word remains to send, the tail the pass writes at
is below C, the pass writes at least one word and never more than remain. -/
def sendOk (c : Nat) (x : Send) : Bool :=
  match x.pos with
  | .s0 => true
  | .saTx => decide (x.sent < x.words.length)
  | .saRx => decide (x.sent < x.words.length)
  | .sb => decide (x.sent < x.words.length)
  | .sc => decide (x.sent < x.words.length ∧ x.tail < c)
  | .sdCount => decide (x.sent < x.words.length ∧ x.tail < c ∧ 1 ≤ x.free)
  | .sdWrite => decide (x.tail < c ∧ 1 ≤ x.k ∧ x.j ≤ x.k ∧ x.sent + x.k ≤ x.words.length)
  | .sdAdv => decide (x.tail < c ∧ 1 ≤ x.k ∧ x.j < x.k ∧ x.sent + x.k ≤ x.words.length)
  | .seRead => decide (x.tail < c ∧ 1 ≤ x.k ∧ x.sent + x.k ≤ x.words.length)
  | .seWrite => decide (x.tail < c ∧ 1 ≤ x.k ∧ x.sent + x.k ≤ x.words.length)
  | .sf => decide (1 ≤ x.k ∧ x.sent + x.k ≤ x.words.length)
  | .sg => decide (1 ≤ x.k ∧ x.sent + x.k ≤ x.words.length)

/-- The drain buffer holds the counted words and never more than DRAIN_MAX (43 R125). -/
def drainOk (c : Nat) (d : Drain) : Bool := decide (d.buf.length = d.n ∧ d.n ≤ drainMax c)

/-- What holds of the ordinary context: INIT runs only before INIT has completed, SEND only after it (70 R173). -/
def callerOk (c : Nat) (P : PortState) : Bool :=
  match P.caller with
  | .idle => true
  | .init => !P.initDone
  | .send x => P.initDone && sendOk c x

/-- What holds of the handler: INH is 1 exactly while DRAIN is active (10 R39), DRAIN is active only after INIT
(60 R158), the lock is held exactly while DRAIN holds it. -/
def handlerOk (c : Nat) (P : PortState) : Bool :=
  match P.drain with
  | none => !P.inh && decide (P.lock = .free)
  | some d => P.inh && P.initDone && drainOk c d && (decide (P.lock = .held) == holdsLock d.pos)

/-- An ended agent has left a fault record (60 R142; 10 R40). -/
def endedOk (f : Option Fault) (P : PortState) : Bool :=
  f.isSome || (!P.directEnded && !P.callerEnded && !P.handlerEnded)

/-- TXCSR holds 0 or DOORBELL (10 R25). -/
def txcsrOk (P : PortState) : Bool := decide (P.txcsr = 0 ∨ P.txcsr = Config.doorbell)

/-- The invariant of one port. -/
def portOk (c : Nat) (f : Option Fault) (P : PortState) : Bool :=
  txcsrOk P && callerOk c P && handlerOk c P && endedOk f P

/-- The invariant every step keeps, whatever the inputs: memory in canonical form, C between 2 and 62, both ports
as above. -/
def MachineInv (s : State) : Prop :=
  s.phys.wf = true ∧ 2 ≤ s.cap ∧ s.cap ≤ 62 ∧ portOk s.cap s.fault s.a = true ∧ portOk s.cap s.fault s.b = true

/-! The ring invariant. -/

/-- An info register's legal value: both sub-fields below C, RSVD 0 (10 R31). -/
def irOk (c : Nat) (w : Word) : Bool :=
  decide (headGet w < c) && decide (tailGet w < c) && decide (w &&& rsvdMask = 0)

/-- The occupancy of a ring with indices below C, as a number (42 R109). -/
def occupancy (c head tail : Nat) : Nat := if head ≤ tail then tail - head else tail + c - head

/-- What the discipline gives of DRAIN's locals at each label: indices read from legal info registers, and never more
words than the ring holds. -/
def drainRingOk (c : Nat) (d : Drain) : Bool :=
  match d.pos with
  | .d1 => true
  | .d2Read => true
  | .d2Write => true
  | .d3Rx => true
  | .d3Tx => decide (d.tail < c)
  | .d4 => decide (d.head < c ∧ d.tail < c ∧ d.n + occupancy c d.head d.tail ≤ drainMax c)
  | .d4Adv => decide (d.head < c ∧ d.tail < c ∧ d.head ≠ d.tail ∧ d.n + occupancy c d.head d.tail ≤ drainMax c + 1)
  | .d5Read => decide (d.head < c)
  | .d5Write => decide (d.head < c) && irOk c d.r
  | .d6 => true
  | .d7 => true

/-- What the discipline gives of SEND's locals at each label. -/
def sendRingOk (c : Nat) (x : Send) : Bool :=
  match x.pos with
  | .s0 => true
  | .saTx => true
  | .saRx => decide (x.tail < c)
  | .sb => decide (x.tail < c ∧ x.head < c)
  | .sc => true
  | .sdCount => true
  | .sdWrite => true
  | .sdAdv => true
  | .seRead => true
  | .seWrite => irOk c x.r
  | .sf => true
  | .sg => true

/-- The ring invariant of one port's sequences. -/
def portRingOk (c : Nat) (P : PortState) : Bool :=
  (match P.drain with
   | none => true
   | some d => drainRingOk c d) &&
  (match P.caller with
   | .idle => true
   | .init => true
   | .send x => sendRingOk c x)

/-- The ring invariant: both info registers legal (10 R31; 70 R172) and the sequences' locals read from legal ones. -/
def RingInv (s : State) : Prop :=
  irOk s.cap (irOf s .a) = true ∧ irOk s.cap (irOf s .b) = true ∧ portRingOk s.cap s.a = true ∧
    portRingOk s.cap s.b = true

/-- The input keeps to the discipline of 10 R46 and meets no failing acknowledgement: no direct access, and every
acknowledgement status 0. -/
def disciplined : Input → Bool
  | .issue _ => false
  | .callRead _ _ => false
  | .callWrite _ _ _ => false
  | .hostRead _ _ _ => false
  | .hostWrite _ _ _ _ => false
  | .init _ => true
  | .send _ _ => true
  | .interrupt _ => true
  | .caller _ => true
  | .handler _ => true
  | .ack _ status => decide (status = 0)
  | .reset => true

end Sys2Proof.Safety
end

