-- ==== Sys2Proof/Certificates/Slice0/Obligations.lean ====
section
/-! DEFINITION. The statements for the provers, each from a numbered rule of spec/ or a section of it. -/

open Sys2Proof Sys2Proof.Machine Sys2Proof.Safety

/-! Decoding and encoding. -/

/-- Some words of 30 R73 and R74, written out from the formats of R69 and R70, decode to their operations. -/
def Obligations.OpcodeMapWordsDecode : Prop :=
  decode ⟨.b, 0b000000101, 0, 0, 0⟩ = .ok (.rdTxSlot .b 5) ∧
  decode ⟨.a, 0b000111110, 0, 0, 0⟩ = .ok (.rdTxIr .a) ∧
  decode ⟨.a, 0b010111111, 7, 0, 0⟩ = .ok (.wrTxCsr .a 7) ∧
  decode ⟨.a, 0b001000000, 0, 0, 0⟩ = .ok (.rdRxSlot .a 64) ∧
  decode ⟨.b, 0b011111111, 9, 0, 0⟩ = .ok (.wrRxCsr .b 9) ∧
  decode ⟨.a, 0b100000010, 0x305, 7, 0⟩ = .ok (.headPack .a 0x305 7) ∧
  decode ⟨.a, 0b100001010, 0, 2, 5⟩ = .ok (.free .a 2 5)

/-- decode of encode is the operation, for every well-formed operation with every operand (30 R73, R74, R82). -/
def Obligations.DecodeEncodeRoundTrip : Prop := ∀ i : Instr, i.wf = true → decode (encode i) = .ok i

/-- encode of a decoded request has the request's operation word and issuing port, and the decoded operation is
well-formed: no word of R73 and R74 has two readings. -/
def Obligations.DecodedOperationReencodesToItsWord : Prop :=
  ∀ (r : Request) (i : Instr), decode r = .ok i →
    i.wf = true ∧ (encode i).opw = r.opw ∧ (encode i).port = r.port

/-- The BUS opcode map (30 R73): the class of a BUS word is fixed by the range its number lies in. -/
def Obligations.BusWordsDecodeByRange : Prop :=
  ∀ (p : Port) (w : BitVec 9) (v : Word) (x y : Nat),
    (w.toNat ≤ 0x03D → decode ⟨p, w, v, x, y⟩ = .ok (.rdTxSlot p (w.setWidth 7))) ∧
    (w.toNat = 0x03E → decode ⟨p, w, v, x, y⟩ = .ok (.rdTxIr p)) ∧
    (w.toNat = 0x03F → decode ⟨p, w, v, x, y⟩ = .ok (.rdTxCsr p)) ∧
    (0x040 ≤ w.toNat ∧ w.toNat ≤ 0x07D → decode ⟨p, w, v, x, y⟩ = .ok (.rdRxSlot p (w.setWidth 7))) ∧
    (w.toNat = 0x07E → decode ⟨p, w, v, x, y⟩ = .ok (.rdRxIr p)) ∧
    (w.toNat = 0x07F → decode ⟨p, w, v, x, y⟩ = .ok (.rdRxCsr p)) ∧
    (0x080 ≤ w.toNat ∧ w.toNat ≤ 0x0BD → decode ⟨p, w, v, x, y⟩ = .ok (.wrTxSlot p (w.setWidth 7) v)) ∧
    (w.toNat = 0x0BE → decode ⟨p, w, v, x, y⟩ = .ok (.wrTxIr p v)) ∧
    (w.toNat = 0x0BF → decode ⟨p, w, v, x, y⟩ = .ok (.wrTxCsr p v)) ∧
    (0x0C0 ≤ w.toNat ∧ w.toNat ≤ 0x0FD → decode ⟨p, w, v, x, y⟩ = .ok (.wrRxSlot p (w.setWidth 7) v)) ∧
    (w.toNat = 0x0FE → decode ⟨p, w, v, x, y⟩ = .ok (.wrRxIr p v)) ∧
    (w.toNat = 0x0FF → decode ⟨p, w, v, x, y⟩ = .ok (.wrRxCsr p v))

/-! The step. -/

/-- A step whose oldest input is an operation of a port's direct agent that has not faulted, and whose word decodes to
`i`, is exec of `i`, with that input taken off the list and nothing else around it. -/
def Obligations.StepRunsTheDecodedOperation : Prop :=
  ∀ (s : State) (r : Request) (rest : List Input) (i : Instr), s.inputs = .issue r :: rest →
    (portOf s r.port).directEnded = false → decode r = .ok i → step s = exec i { s with inputs := rest }

/-- Placing a table word makes the very next step run the operation the decoder reads from it. -/
def Obligations.PlacedTableWordRunsNext : Prop :=
  ∀ (s : State) (nbits w : Nat) (i : Instr), decodeTableWord nbits w = some i →
    ∃ s', step (s.withFetchWord nbits w) = exec i s' ∧ s'.phys = s.phys ∧ s'.b = s.b ∧
      s'.a = { s.a with directEnded := false } ∧ s'.cap = s.cap ∧ s'.fault = s.fault ∧ s'.refusal = s.refusal ∧
      s'.inputs = s.inputs

/-- Illegal words (30 R76): exactly the 245 words 0x10B to 0x1FF decode to ILLEGAL, whoever issues them with whatever
operands, so no BUS word does; and performing one raises FAULT_ILLEGAL_OP: the step goes on to the state in which the
issuing direct agent has raised it. -/
def Obligations.IllegalWordsRaiseTheirFault : Prop :=
  ∀ r : Request,
    (decode r = .error (.illegal r.opw) ↔ 0x10B ≤ r.opw.toNat) ∧
    ∀ (s : State) (rest : List Input), s.inputs = .issue r :: rest → (portOf s r.port).directEnded = false →
      0x10B ≤ r.opw.toNat →
      step s = .next (raiseFault ⟨r.port, .direct⟩ (.illegalOp r.opw) { s with inputs := rest })

/-- No input stops the machine: every step answers a next state, takes one input and leaves C as it is. A fault or a
refusal of the spec is a record in that state (60 R142, R146, R147). -/
def Obligations.EveryStepAnswersNext : Prop :=
  ∀ s : State, ∃ t, step s = .next t ∧ t.inputs = s.inputs.tail ∧ t.cap = s.cap

/-! The register window (40). -/

/-- RD.TXSLOT and RD.RXSLOT (40 R85, R91): the slot's cell is delivered to the issuing port, and nothing else in the
state changes; their words are 0x000 + i and 0x040 + (i - 64). -/
def Obligations.SlotReadsDeliverTheirCell : Prop :=
  ∀ (s : State) (p : Port) (i : BitVec 7),
    (i.toNat ≤ 61 → (encode (.rdTxSlot p i)).opw.toNat = 0x000 + i.toNat ∧
      exec (.rdTxSlot p i) s = .next (deliversWord s p (readCell s.phys (sendSlotCell p i.toNat)))) ∧
    (64 ≤ i.toNat ∧ i.toNat ≤ 125 → (encode (.rdRxSlot p i)).opw.toNat = 0x040 + (i.toNat - 64) ∧
      exec (.rdRxSlot p i) s = .next (deliversWord s p (readCell s.phys (recvSlotCell p i.toNat))))

/-- WR.TXSLOT and WR.RXSLOT (40 R86, R92): the slot's cell holds the value, every other cell reads as before, and
nothing else changes, whatever the ring's occupancy; their words are 0x080 + i and 0x0C0 + (i - 64). -/
def Obligations.SlotWritesStoreOnlyTheirCell : Prop :=
  ∀ (s : State) (p : Port) (i : BitVec 7) (v : Word), s.phys.wf = true →
    (i.toNat ≤ 61 → (encode (.wrTxSlot p i v)).opw.toNat = 0x080 + i.toNat ∧
      ∃ t, exec (.wrTxSlot p i v) s = .next t ∧ StoresOnly s t (sendSlotCell p i.toNat) v) ∧
    (64 ≤ i.toNat ∧ i.toNat ≤ 125 → (encode (.wrRxSlot p i v)).opw.toNat = 0x0C0 + (i.toNat - 64) ∧
      ∃ t, exec (.wrRxSlot p i v) s = .next t ∧ StoresOnly s t (recvSlotCell p i.toNat) v)

/-- RD.TXIR and RD.RXIR (40 R87, R93): all 64 bits of the own and of the other port's info register, and nothing else
changes; their words are 0x03E and 0x07E. -/
def Obligations.InfoRegisterReadsDeliverIt : Prop :=
  ∀ (s : State) (p : Port),
    (encode (.rdTxIr p)).opw = 0x03E ∧ (encode (.rdRxIr p)).opw = 0x07E ∧
    exec (.rdTxIr p) s = .next (deliversWord s p (readCell s.phys (irCell p))) ∧
    exec (.rdRxIr p) s = .next (deliversWord s p (readCell s.phys (irCell (other p))))

/-- WR.TXIR and WR.RXIR (40 R88, R94): all 64 bits of the own and of the other port's info register are stored, every
other cell reads as before, and nothing else changes; their words are 0x0BE and 0x0FE. -/
def Obligations.InfoRegisterWritesStoreOnlyIt : Prop :=
  ∀ (s : State) (p : Port) (v : Word), s.phys.wf = true →
    (encode (.wrTxIr p v)).opw = 0x0BE ∧ (encode (.wrRxIr p v)).opw = 0x0FE ∧
    (∃ t, exec (.wrTxIr p v) s = .next t ∧ StoresOnly s t (irCell p) v) ∧
    (∃ t, exec (.wrRxIr p v) s = .next t ∧ StoresOnly s t (irCell (other p)) v)

/-- RD.TXCSR and RD.RXCSR (40 R90, R95): the port's own register, and nothing else changes; no bell rings and PEND is
not cleared; their words are 0x03F and 0x07F. -/
def Obligations.CsrReadsDeliverThem : Prop :=
  ∀ (s : State) (p : Port),
    (encode (.rdTxCsr p)).opw = 0x03F ∧ (encode (.rdRxCsr p)).opw = 0x07F ∧
    exec (.rdTxCsr p) s = .next (deliversWord s p (portOf s p).txcsr) ∧
    exec (.rdRxCsr p) s = .next (deliversWord s p (portOf s p).rxcsr)

/-- WR.TXCSR (40 R89; 60 R153), word 0x0BF. Of all ones: TXCSR[p] holds it and PEND of the other port is 1, whatever that
port's registers hold, and nothing else changes. Of any other value: nothing is stored, no pulse is sent, and the refusal
is marked if none was. -/
def Obligations.TxCsrWriteRingsThePeerOrIsRefused : Prop :=
  ∀ (s : State) (p : Port) (v : Word),
    (encode (.wrTxCsr p v)).opw = 0x0BF ∧
    (v = 0xFFFFFFFFFFFFFFFF → ∃ t, exec (.wrTxCsr p v) s = .next t ∧
      portOf t p = { portOf s p with txcsr := v } ∧
      portOf t (other p) = { portOf s (other p) with pend := true } ∧
      t = { s with a := t.a, b := t.b }) ∧
    (v ≠ 0xFFFFFFFFFFFFFFFF → ∃ t, exec (.wrTxCsr p v) s = .next t ∧
      t = { s with refusal := t.refusal } ∧
      t.refusal = (match s.refusal with
        | none => some .doorbellValue
        | some r => some r))

/-- WR.RXCSR (40 R96; 60 R154), word 0x0FF: RXCSR[p] holds all 64 bits and PEND[p] is 0; nothing else changes. -/
def Obligations.RxCsrWriteStoresAndClearsPend : Prop :=
  ∀ (s : State) (p : Port) (v : Word), (encode (.wrRxCsr p v)).opw = 0x0FF ∧
    ∃ t, exec (.wrRxCsr p v) s = .next t ∧
      portOf t p = { portOf s p with rxcsr := v, pend := false } ∧ portOf t (other p) = portOf s (other p) ∧
      t = { s with a := t.a, b := t.b }

/-- The index check (40 R84): an accessor call at index 128 or above raises FAULT_IDX_RANGE with the port, the index and
the direction, before any access; no index below 128 raises it. -/
def Obligations.IndexAbove127Faults : Prop :=
  ∀ (s : State) (p : Port) (i : Nat) (v : Word) (rest : List Input), (portOf s p).directEnded = false →
    (128 ≤ i ∧ s.inputs = .callRead p i :: rest →
      step s = .next (raiseFault ⟨p, .direct⟩ (.idxRange p i false) { s with inputs := rest })) ∧
    (128 ≤ i ∧ s.inputs = .callWrite p i v :: rest →
      step s = .next (raiseFault ⟨p, .direct⟩ (.idxRange p i true) { s with inputs := rest })) ∧
    (i < 128 → memRead s p i = .ok (view s p i) ∧ ∀ f, memWrite s p i v ≠ .error (.fault f))

/-- An accessor call at an index below 128 performs the BUS operation whose word has that index in IDX and the
direction in WE (30 R69, R71). -/
def Obligations.AccessorCallIsItsBusWord : Prop :=
  ∀ (s : State) (p : Port) (i : BitVec 7) (v : Word),
    perform (.callRead p i.toNat) s = perform (.issue ⟨p, 0#1 ++ 0#1 ++ i, v, 0, 0⟩) s ∧
    perform (.callWrite p i.toNat v) s = perform (.issue ⟨p, 0#1 ++ 1#1 ++ i, v, 0, 0⟩) s

/-- A host access through a port (20 R50, R52, R53): 8 bytes at WINDOW_BASE + 8 i is the accessor call at i; any other
size, and any address that is no cell's, sets REFUSE_SUBWORD and does nothing else. -/
def Obligations.HostBytesReachWholeCellsOnly : Prop :=
  ∀ (s : State) (p : Port) (addr size : Nat) (v : Word), (portOf s p).directEnded = false →
    (∀ i, i < 128 → perform (.hostRead p (Config.windowBase + 8 * i) 8) s = perform (.callRead p i) s ∧
      perform (.hostWrite p (Config.windowBase + 8 * i) 8 v) s = perform (.callWrite p i v) s) ∧
    ((size ≠ 8 ∨ ∀ i, i < 128 → addr ≠ Config.windowBase + 8 * i) →
      perform (.hostRead p addr size) s = .next (refuse .subword s) ∧
      perform (.hostWrite p addr size v) s = .next (refuse .subword s))

/-- The peer's window is the same cells with bit 6 of the index inverted (10 R23): what one port writes at an index that
is not a CSR's, the other reads at the index with bit 6 flipped. -/
def Obligations.PeerReadsTheMirroredIndex : Prop :=
  ∀ (s t : State) (p : Port) (i : Nat) (v : Word), s.phys.wf = true → i < 128 → i ≠ 63 → i ≠ 127 →
    memWrite s p i v = .ok t → memRead t (other p) (i ^^^ 64) = .ok v

/-- Sequential consistency at one port (20 R60): a read returns what a performed write of the same index stored, and a
performed write leaves every other index of the port's window as it was. -/
def Obligations.ReadReturnsTheLatestWrite : Prop :=
  ∀ (s t : State) (p : Port) (i : Nat) (v : Word), s.phys.wf = true → memWrite s p i v = .ok t →
    memRead t p i = .ok v ∧ ∀ j, j ≠ i → memRead t p j = memRead s p j

/-! The codec (41). -/

/-- HEAD.GET and TAIL.GET (41 R100, R101), words 0x100 and 0x101: bits 7:0 and 15:8 as a number; nothing else
changes. -/
def Obligations.FieldGetsReturnTheirByte : Prop :=
  ∀ (s : State) (p : Port) (reg : Word),
    (encode (.headGet p reg)).opw = 0x100 ∧ (encode (.tailGet p reg)).opw = 0x101 ∧
    exec (.headGet p reg) s = .next (returnsValue s p (reg.toNat % 256)) ∧
    exec (.tailGet p reg) s = .next (returnsValue s p (reg.toNat / 256 % 256))

/-- HEAD.PACK and TAIL.PACK (41 R102, R103), words 0x102 and 0x103. Of a value below C: the value returned has the new
byte and every other bit is the register's; nothing else changes. Of a value of C or more: FAULT_FIELD_RANGE with the
field and the value. -/
def Obligations.PacksReplaceOneByteOrFault : Prop :=
  ∀ (s : State) (p : Port) (reg : Word) (x : Nat), s.cap ≤ 62 →
    (encode (.headPack p reg x)).opw = 0x102 ∧ (encode (.tailPack p reg x)).opw = 0x103 ∧
    (x < s.cap →
      exec (.headPack p reg x) s = .next (returnsValue s p (reg.toNat / 256 * 256 + x)) ∧
      exec (.tailPack p reg x) s =
        .next (returnsValue s p (reg.toNat / 65536 * 65536 + x * 256 + reg.toNat % 256))) ∧
    (s.cap ≤ x →
      exec (.headPack p reg x) s = .next (raiseFault ⟨p, .direct⟩ (.fieldRange .head x) s) ∧
      exec (.tailPack p reg x) s = .next (raiseFault ⟨p, .direct⟩ (.fieldRange .tail x) s))

/-- The packs commute, undo the gets, and each leaves the other byte (41 R102, R103; 40 R97). -/
def Obligations.PacksCommuteAndIsolateBytes : Prop :=
  ∀ (c : Nat) (w w1 w2 u1 u2 : Word) (h t : Nat), c ≤ 62 →
    headPack c w h = .ok w1 → tailPack c w1 t = .ok w2 → tailPack c w t = .ok u1 → headPack c u1 h = .ok u2 →
    w2 = u2 ∧ headGet w1 = h ∧ tailGet w1 = tailGet w ∧ tailGet u1 = t ∧ headGet u1 = headGet w ∧
      w2 &&& rsvdMask = w &&& rsvdMask ∧ (h = headGet w → w1 = w) ∧ (t = tailGet w → u1 = w)

/-- CSR.EN and CSR.VALID (41 R104, R105), words 0x104 and 0x105: bit 63, and bits 62:0 with bit 62 among them; nothing
else changes. -/
def Obligations.CsrFieldsReturnTheirBits : Prop :=
  ∀ (s : State) (p : Port) (csr : Word),
    (encode (.csrEn p csr)).opw = 0x104 ∧ (encode (.csrValid p csr)).opw = 0x105 ∧
    exec (.csrEn p csr) s = .next (returnsValue s p (csr.toNat / 2 ^ 63)) ∧
    exec (.csrValid p csr) s = .next (returnsValue s p (csr.toNat % 2 ^ 63))

/-- CSR.MAKE (41 R106), word 0x106: the value for inputs that fit; FAULT_FIELD_RANGE for inputs that do not, with the
field and the first of the two values that does not fit (60 R141, R145; which value: log entry 18). -/
def Obligations.CsrMakeEncodesOrFaults : Prop :=
  ∀ (s : State) (p : Port) (en valid : Nat),
    (encode (.csrMake p en valid)).opw = 0x106 ∧
    (en ≤ 1 ∧ valid < 2 ^ 63 → exec (.csrMake p en valid) s = .next (returnsValue s p (en * 2 ^ 63 + valid))) ∧
    (1 < en → exec (.csrMake p en valid) s = .next (raiseFault ⟨p, .direct⟩ (.fieldRange .csr en) s)) ∧
    (en ≤ 1 ∧ 2 ^ 63 ≤ valid →
      exec (.csrMake p en valid) s = .next (raiseFault ⟨p, .direct⟩ (.fieldRange .csr valid) s))

/-- CSR.MAKE of a value's own two fields is the value (41 R106). -/
def Obligations.CsrMakeUndoesItsFields : Prop := ∀ c : Word, csrMake (csrEn c) (csrValid c) = .ok c

/-! Pointer arithmetic (42). -/

/-- MODCAP (42 R107), word 0x107: the remainder by C of an input below 2C; a larger input raises FAULT_ARITH_RANGE. -/
def Obligations.ModCapWrapsOnceOrFaults : Prop :=
  ∀ (s : State) (p : Port) (v : Nat),
    (encode (.modCap p v)).opw = 0x107 ∧
    (v < 2 * s.cap → exec (.modCap p v) s = .next (returnsValue s p (v % s.cap))) ∧
    (2 * s.cap ≤ v → exec (.modCap p v) s = .next (raiseFault ⟨p, .direct⟩ (.arithRange .modCap [v]) s))

/-- ADV (42 R108), word 0x108: the next index modulo C for an index below C; a larger one raises FAULT_ARITH_RANGE. -/
def Obligations.AdvMovesOneSlotOrFaults : Prop :=
  ∀ (s : State) (p : Port) (i : Nat),
    (encode (.adv p i)).opw = 0x108 ∧
    (i < s.cap → exec (.adv p i) s = .next (returnsValue s p (if i + 1 = s.cap then 0 else i + 1))) ∧
    (s.cap ≤ i → exec (.adv p i) s = .next (raiseFault ⟨p, .direct⟩ (.arithRange .adv [i]) s))

/-- USED and FREE (42 R109, R110), words 0x109 and 0x10A. For indices below C: (tail - head) mod C, and C - 1 less that.
For an index of C or more: FAULT_ARITH_RANGE, which is USED's for both. -/
def Obligations.UsedAndFreeCountTheRingOrFault : Prop :=
  ∀ (s : State) (p : Port) (head tail : Nat),
    (encode (.used p head tail)).opw = 0x109 ∧ (encode (.free p head tail)).opw = 0x10A ∧
    (head < s.cap ∧ tail < s.cap →
      exec (.used p head tail) s =
        .next (returnsValue s p (if head ≤ tail then tail - head else tail + s.cap - head)) ∧
      exec (.free p head tail) s =
        .next (returnsValue s p (s.cap - 1 - (if head ≤ tail then tail - head else tail + s.cap - head)))) ∧
    (s.cap ≤ head ∨ s.cap ≤ tail →
      exec (.used p head tail) s = .next (raiseFault ⟨p, .direct⟩ (.arithRange .used [head, tail]) s) ∧
      exec (.free p head tail) s = .next (raiseFault ⟨p, .direct⟩ (.arithRange .used [head, tail]) s))

/-- The arithmetic laws (42 R111) for every C from 2 and all indices below C: occupancy and free space add up to C - 1, what
empty and full are, what a produced and a consumed word do, and ADV applied n times. -/
def Obligations.ArithmeticLaws : Prop :=
  ∀ (c head tail : Nat), 2 ≤ c → head < c → tail < c →
    (∃ u f, used c head tail = .ok u ∧ free c head tail = .ok f ∧ u ≤ c - 1 ∧ f ≤ c - 1 ∧ u + f = c - 1 ∧
      (u = 0 ↔ head = tail) ∧ (f = 0 ↔ adv c tail = .ok head) ∧
      (∀ t', adv c tail = .ok t' → 0 < f → used c head t' = .ok (u + 1)) ∧
      (∀ h', adv c head = .ok h' → 0 < u → used c h' tail = .ok (u - 1))) ∧
    ∀ n, advTimes c head n = .ok ((head + n) % c)

/-! Faults and refusals (60). -/

/-- What raising a fault does (60 R142, R146; 10 R40): the first fault stays recorded, the acting agent is ended, and
nothing else of the state changes. -/
def Obligations.RaisingAFaultEndsOnlyItsAgent : Prop :=
  ∀ (s : State) (p : Port) (c : Ctx) (f : Fault), ∃ P,
    raiseFault ⟨p, c⟩ f s = setPort { s with fault := if s.fault.isSome then s.fault else some f } p P ∧
    ended (raiseFault ⟨p, c⟩ f s) ⟨p, c⟩ = true ∧
    (c = .direct → P = { portOf s p with directEnded := true }) ∧
    (c = .caller → P = { portOf s p with callerEnded := true }) ∧
    (c = .handler → P = { portOf s p with handlerEnded := true })

/-- The fault record and the refusal mark (10 R40, R41): none at reset; once set, the first one is kept by every step; and
a state that has one is never a final state. -/
def Obligations.FirstFaultAndRefusalAreKept : Prop :=
  State.reset.fault = none ∧ State.reset.refusal = none ∧
  (∀ (s t : State), step s = .next t →
    (∀ f, s.fault = some f → t.fault = some f) ∧ (∀ r, s.refusal = some r → t.refusal = some r)) ∧
  ∀ s : State, s.fault ≠ none ∨ s.refusal ≠ none → atEnd s = false

/-- An agent that has faulted takes no further step (60 R142): an input that is its action only leaves the list. -/
def Obligations.FaultedAgentTakesNoFurtherStep : Prop :=
  ∀ (s : State) (e : Input) (rest : List Input) (ag : Agent), s.inputs = e :: rest → agentOf e = some ag →
    ended s ag = true → step s = .next { s with inputs := rest }

/-- Faults are precise (60 R143) and refused operations change no block state (60 R147): a step that sets the record or
the mark leaves every cell, CSR and pending latch as it was. -/
def Obligations.FaultsAndRefusalsChangeNoBlockState : Prop :=
  ∀ (s t : State), step s = .next t →
    ((s.fault = none ∧ t.fault ≠ none) ∨ (s.refusal = none ∧ t.refusal ≠ none)) → SameBlock s t

/-! Interrupts (60). -/

/-- The arbiter (60 R155). -/
def Obligations.IrqIsEnabledPendingAndGated : Prop :=
  ∀ (s : State) (p : Port), irq s p = true ↔
    ((portOf s p).rxcsr.toNat / 2 ^ 63 = 1 ∧ (portOf s p).pend = true ∧
      (Config.validGatesIrq = false ∨ (portOf s p).rxcsr.toNat % 2 ^ 63 ≠ 0))

/-- Delivery (60 R158): where INH is 0, INIT has completed and either IRQ is 1 or SPURIOUS_DELIVERY holds, the handler is
entered: INH becomes 1, DRAIN stands at D1, and nothing else changes. -/
def Obligations.DeliveryEntersTheHandler : Prop :=
  ∀ (s : State) (p : Port) (rest : List Input), s.inputs = .interrupt p :: rest →
    (portOf s p).inh = false → (portOf s p).initDone = true → (irq s p = true ∨ Config.spuriousDelivery = true) →
    ∃ t d, step s = .next t ∧ portOf t p = { portOf s p with inh := true, drain := some d } ∧ d.pos = .d1 ∧
      portOf t (other p) = portOf s (other p) ∧ t = { s with inputs := rest, a := t.a, b := t.b }

/-- No delivery while the handler runs, before INIT has completed, or with IRQ low on a platform that makes no spurious
calls (60 R158, R161): the input only leaves the list (log entry 2). -/
def Obligations.NoDeliveryOutsideItsConditions : Prop :=
  ∀ (s : State) (p : Port) (rest : List Input), s.inputs = .interrupt p :: rest →
    ((portOf s p).inh = true ∨ (portOf s p).initDone = false ∨
      (irq s p = false ∧ Config.spuriousDelivery = false)) →
    step s = .next { s with inputs := rest }

/-- Acknowledgement and return (43 R128; 60 R159, R160): at D7 a status of 0 returns from the handler and changes nothing
else; any other status raises FAULT_ACK_FAIL and INH stays as it was. -/
def Obligations.AcknowledgementReturnsOrFaults : Prop :=
  ∀ (s : State) (p : Port) (status : Word) (d : Drain), (portOf s p).drain = some d → d.pos = .d7 →
    (portOf s p).handlerEnded = false →
    (status = 0 → ∃ t, perform (.ack p status) s = .next t ∧
      portOf t p = { portOf s p with inh := false, drain := none } ∧ portOf t (other p) = portOf s (other p) ∧
      t = { s with a := t.a, b := t.b }) ∧
    (status ≠ 0 → perform (.ack p status) s = .next (raiseFault ⟨p, .handler⟩ (.ackFail p status) s))

/-- No port reaches the other's registers (10 R24, R26; 60 R151): a step that acts for port p and writes DOORBELL to TX_CSR
only sets the other port's PEND; every other step of p changes nothing of the other port. -/
def Obligations.AStepReachesThePeerOnlyByDoorbell : Prop :=
  ∀ (s t : State) (e : Input) (rest : List Input) (p : Port), s.inputs = e :: rest → actsFor e = some p →
    step s = .next t →
    (Rings s e p → portOf t (other p) = { portOf s (other p) with pend := true }) ∧
    (¬ Rings s e p → portOf t (other p) = portOf s (other p))

/-- PEND[p] is 1 after the other port's write of DOORBELL, 0 after an own write of RXCSR or a reset, and no other step
moves it or RXCSR[p] (60 R151, R153, R154; 10 R28). -/
def Obligations.PendMovesOnlyByDoorbellAndRearm : Prop :=
  ∀ (s t : State) (e : Input) (rest : List Input) (p : Port), s.inputs = e :: rest → step s = .next t →
    (Rings s e (other p) → (portOf t p).pend = true ∧ (portOf t p).rxcsr = (portOf s p).rxcsr) ∧
    (∀ v, Arms s e p v → (portOf t p).pend = false ∧ (portOf t p).rxcsr = v) ∧
    (e = .reset → (portOf t p).pend = false ∧ (portOf t p).rxcsr = 0) ∧
    (¬ Rings s e (other p) → (∀ v, ¬ Arms s e p v) → e ≠ .reset →
      (portOf t p).pend = (portOf s p).pend ∧ (portOf t p).rxcsr = (portOf s p).rxcsr)

/-- A doorbell and a re-arm meet in one of two orders (60 R152, R156; 70 R178): a doorbell before the receiving port's write
of RXCSR is discarded by it, and one after it stays pending and, where the write set EN and VALID is not gated out, raises
the interrupt. -/
def Obligations.DoorbellAndRearmTakeTheirOrder : Prop :=
  ∀ (s : State) (p : Port) (v : Word) (rest : List Input), (portOf s p).directEnded = false →
    (portOf s (other p)).directEnded = false →
    (s.inputs = .callWrite (other p) 63 Config.doorbell :: .callWrite p 127 v :: rest →
      ∃ t, Host.Core.run core 2 s = .next t ∧ (portOf t p).rxcsr = v ∧ (portOf t p).pend = false ∧ irq t p = false) ∧
    (s.inputs = .callWrite p 127 v :: .callWrite (other p) 63 Config.doorbell :: rest →
      ∃ t, Host.Core.run core 2 s = .next t ∧ (portOf t p).rxcsr = v ∧ (portOf t p).pend = true ∧
        (v = 0xFFFFFFFFFFFFFFFF → irq t p = true))

/-- The other port's registers are out of reach (10 R24, R26, R29): whatever they hold, a port reads the same at every
index. -/
def Obligations.OtherPortsRegistersAreUnreadable : Prop :=
  ∀ (s : State) (p : Port) (Q : PortState) (i : Nat), memRead (setPort s (other p) Q) p i = memRead s p i

/-! The reference sequences (43). -/

/-- INIT (43 R120): onInit on a port that has not run it, then one step: RX_CSR holds all ones, PEND is 0, INIT has
completed, and nothing else changes. -/
def Obligations.InitArmsThePort : Prop :=
  ∀ (s : State) (p : Port) (rest : List Input), s.inputs = .init p :: .caller p :: rest →
    (portOf s p).initDone = false → (portOf s p).inh = false → (portOf s p).callerEnded = false →
    (portOf s p).caller = .idle →
    ∃ t, Host.Core.run core 2 s = .next t ∧
      portOf t p = { portOf s p with rxcsr := 0xFFFFFFFFFFFFFFFF, pend := false, initDone := true } ∧
      portOf t (other p) = portOf s (other p) ∧ t = { s with inputs := rest, a := t.a, b := t.b }

/-- The lock at D1 (43 R121; 20 R64): while it is held DRAIN waits with nothing changed; free, it is taken and DRAIN goes on
to D2, with no access. -/
def Obligations.DrainWaitsForAHeldLock : Prop :=
  ∀ (s : State) (p : Port) (d : Drain), (portOf s p).drain = some d → (portOf s p).handlerEnded = false →
    d.pos = .d1 →
    ((portOf s p).lock = .held → perform (.handler p) s = .next s) ∧
    ((portOf s p).lock = .free → ∃ t d', perform (.handler p) s = .next t ∧ d'.pos = .d2Read ∧
      portOf t p = { portOf s p with lock := .held, drain := some d' } ∧ portOf t (other p) = portOf s (other p) ∧
      t = { s with a := t.a, b := t.b })

/-- SEND never runs while DRAIN is active (43 R115; 10 R39): the ordinary context takes no step while INH is 1. -/
def Obligations.HandlerHoldsTheOrdinaryContext : Prop :=
  ∀ (s : State) (p : Port), (portOf s p).inh = true → perform (.caller p) s = .next s

/-- The faults of the sequences' own steps, each before any access (43 R124, R125, R132; 41 R102; 60 R143, R145). DRAIN at
D4 with head ≠ tail: the append to a full buffer, before any read; else the read of an index from 128 on. DRAIN's advance
of a head of C or more; the publish of one at D5. SEND at Sb with a head or tail of C or more. -/
def Obligations.SequencesFaultOutsideTheirRanges : Prop :=
  ∀ (s : State) (p : Port),
    (∀ d, (portOf s p).drain = some d → (portOf s p).handlerEnded = false →
      (d.pos = .d4 → d.head ≠ d.tail → d.n = s.cap - 1 →
        perform (.handler p) s = .next (raiseFault ⟨p, .handler⟩ (.drainOverrun p) s)) ∧
      (d.pos = .d4 → d.head ≠ d.tail → d.n ≠ s.cap - 1 → 128 ≤ 64 + d.head →
        perform (.handler p) s = .next (raiseFault ⟨p, .handler⟩ (.idxRange p (64 + d.head) false) s)) ∧
      (d.pos = .d4Adv → s.cap ≤ d.head →
        perform (.handler p) s = .next (raiseFault ⟨p, .handler⟩ (.arithRange .adv [d.head]) s)) ∧
      (d.pos = .d5Write → s.cap ≤ d.head →
        perform (.handler p) s = .next (raiseFault ⟨p, .handler⟩ (.fieldRange .head d.head) s))) ∧
    (∀ x, (portOf s p).caller = .send x → (portOf s p).callerEnded = false → (portOf s p).inh = false →
      x.pos = .sb → s.cap ≤ x.head ∨ s.cap ≤ x.tail →
      perform (.caller p) s = .next (raiseFault ⟨p, .caller⟩ (.arithRange .used [x.head, x.tail]) s))

/-- A DRAIN run without other agents between its steps (43 R129): from D1 with the lock free and both indices below C, it
comes to D7 without fault, having read the ring's words in order, published HEAD = tail leaving TAIL and RSVD, re-armed
RXCSR with VALID kept, cleared PEND and freed the lock; no other cell and nothing of the other port changes. -/
def Obligations.DrainReadsTheWholeRingInOrder : Prop :=
  ∀ (s : State) (p : Port) (d : Drain) (n : Nat) (rest : List Input), MachineInv s →
    (portOf s p).drain = some d → d.pos = .d1 → (portOf s p).handlerEnded = false →
    headGet (irOf s p) < s.cap → tailGet (irOf s (other p)) < s.cap →
    used s.cap (headGet (irOf s p)) (tailGet (irOf s (other p))) = .ok n →
    s.inputs = List.replicate (2 * n + 9) (.handler p) ++ rest →
    ∃ t d', Host.Core.run core (2 * n + 9) s = .next t ∧ (portOf t p).drain = some d' ∧ d'.pos = .d7 ∧
      d'.n = n ∧ d'.buf = (List.range n).map (fun k => view s p (64 + (headGet (irOf s p) + k) % s.cap)) ∧
      headGet (irOf t p) = tailGet (irOf s (other p)) ∧
      tailGet (irOf t p) = tailGet (irOf s p) ∧ irOf t p &&& rsvdMask = irOf s p &&& rsvdMask ∧
      (∀ k, k ≠ irCell p → readCell t.phys k = readCell s.phys k) ∧
      portOf t p = { portOf s p with
        rxcsr := (portOf s p).rxcsr ||| enMask, pend := false, drain := some d' } ∧
      portOf t (other p) = portOf s (other p) ∧ t.fault = s.fault ∧ t.refusal = s.refusal ∧ t.inputs = rest

/-- SEND of an empty list returns with no register access (43 R130). -/
def Obligations.EmptySendReturnsAtOnce : Prop :=
  ∀ (s : State) (p : Port) (rest : List Input), s.inputs = .send p [] :: .caller p :: rest →
    (portOf s p).caller = .idle → (portOf s p).initDone = true → (portOf s p).inh = false →
    (portOf s p).callerEnded = false → Host.Core.run core 2 s = .next { s with inputs := rest }

/-- A second SEND on a port while one is active is refused with REFUSE_CONCURRENT_SEND and does nothing else (43 R138). -/
def Obligations.ConcurrentSendIsRefused : Prop :=
  ∀ (s : State) (p : Port) (words : List Word) (x : Send) (rest : List Input), s.inputs = .send p words :: rest →
    (portOf s p).caller = .send x → (portOf s p).callerEnded = false →
    step s = .next (refuse .concurrentSend { s with inputs := rest })

/-- SEND's poll (43 R132): at Sa with nothing free and neither info register changed between, four steps bring it back to
Sa with no write and no other change, so it waits as long as the ring stays full. -/
def Obligations.FullRingMakesSendPoll : Prop :=
  ∀ (s : State) (p : Port) (x : Send) (rest : List Input), (portOf s p).caller = .send x → x.pos = .saTx →
    (portOf s p).callerEnded = false → (portOf s p).inh = false →
    free s.cap (headGet (irOf s (other p))) (tailGet (irOf s p)) = .ok 0 →
    s.inputs = List.replicate 4 (.caller p) ++ rest →
    ∃ t y, Host.Core.run core 4 s = .next t ∧ portOf t p = { portOf s p with caller := .send y } ∧ y.pos = .saTx ∧
      y.words = x.words ∧ y.sent = x.sent ∧ portOf t (other p) = portOf s (other p) ∧
      t = { s with inputs := rest, a := t.a, b := t.b }

/-- A SEND of a list that fits, run without other agents between its steps (43 R133 to R137): it returns with every word
in successive slots from the tail, TAIL advanced by their number modulo C, HEAD and RSVD kept, the doorbell rung; no
other cell, nothing else of either port changes, and nothing faults. -/
def Obligations.SendWritesPublishesAndRings : Prop :=
  ∀ (s : State) (p : Port) (words : List Word) (f : Nat) (rest : List Input), MachineInv s →
    (portOf s p).caller = .send (Send.start words) → (portOf s p).callerEnded = false → (portOf s p).inh = false →
    words ≠ [] → free s.cap (headGet (irOf s (other p))) (tailGet (irOf s p)) = .ok f → words.length ≤ f →
    s.inputs = List.replicate (2 * words.length + 11) (.caller p) ++ rest →
    ∃ t, Host.Core.run core (2 * words.length + 11) s = .next t ∧
      (∀ k, (h : k < words.length) →
        readCell t.phys (sendSlotCell p ((tailGet (irOf s p) + k) % s.cap)) = words[k]) ∧
      tailGet (irOf t p) = (tailGet (irOf s p) + words.length) % s.cap ∧
      headGet (irOf t p) = headGet (irOf s p) ∧ irOf t p &&& rsvdMask = irOf s p &&& rsvdMask ∧
      (∀ c, c ≠ irCell p →
        (∀ k, k < words.length → c ≠ sendSlotCell p ((tailGet (irOf s p) + k) % s.cap)) →
        readCell t.phys c = readCell s.phys c) ∧
      portOf t p = { portOf s p with caller := .idle, txcsr := Config.doorbell } ∧
      portOf t (other p) = { portOf s (other p) with pend := true } ∧
      t.fault = s.fault ∧ t.refusal = s.refusal ∧ t.inputs = rest

/-- The round trip of one pass (95 WE-1): words sent by one port into an empty ring, with the peer armed and idle, are
what the peer's next DRAIN holds in its buffer at D7, in order. -/
def Obligations.SentWordsAreDrainedInOrder : Prop :=
  ∀ (s : State) (p : Port) (words : List Word) (rest : List Input), MachineInv s →
    (portOf s p).caller = .send (Send.start words) → (portOf s p).callerEnded = false → (portOf s p).inh = false →
    words ≠ [] → words.length ≤ s.cap - 1 →
    headGet (irOf s (other p)) < s.cap → tailGet (irOf s p) = headGet (irOf s (other p)) →
    (portOf s (other p)).rxcsr = 0xFFFFFFFFFFFFFFFF → (portOf s (other p)).initDone = true →
    (portOf s (other p)).inh = false → (portOf s (other p)).handlerEnded = false →
    s.inputs = List.replicate (2 * words.length + 11) (.caller p) ++
      .interrupt (other p) :: (List.replicate (2 * words.length + 9) (.handler (other p)) ++ rest) →
    ∃ t d, Host.Core.run core ((2 * words.length + 11) + 1 + (2 * words.length + 9)) s = .next t ∧
      (portOf t (other p)).drain = some d ∧ d.pos = .d7 ∧ d.buf = words ∧
      headGet (irOf t (other p)) = tailGet (irOf t p) ∧ t.fault = s.fault

/-- The read-modify-write hazard (70 R176): SEND's publish writes back the HEAD it read, whatever the info register holds
by then, so a HEAD that DRAIN published in between is undone. -/
def Obligations.SendPublishUndoesADrainInBetween : Prop :=
  ∀ (s : State) (p : Port) (x : Send), MachineInv s → (portOf s p).caller = .send x → x.pos = .seWrite →
    (portOf s p).callerEnded = false → (portOf s p).inh = false →
    ∃ t, perform (.caller p) s = .next t ∧ headGet (irOf t p) = headGet x.r ∧ tailGet (irOf t p) = x.tail

/-- The writers of the cells (10 R36, R46; 00 R9): a step of port p that is no direct access changes no cell but p's own info
register and the C slots of the ring p produces, so the slots from C on, the other ring and the other port's info register
stay; and the handler's steps change no slot at all. -/
def Obligations.SequencesWriteOnlyTheirOwnCells : Prop :=
  ∀ (s t : State) (e : Input) (rest : List Input) (ag : Agent), MachineInv s → s.inputs = e :: rest →
    agentOf e = some ag → ag.ctx ≠ .direct → step s = .next t →
    ∀ k, k ≠ irCell ag.port → (ag.ctx = .caller → ∀ i, i < s.cap → k ≠ sendSlotCell ag.port i) →
      readCell t.phys k = readCell s.phys k

/-! Reset and invariants. -/

/-- Reset (70 R169, R170): every cell, CSR and pending latch is 0, every IRQ is 0, the locks are free, no handler and no
sequence is active, there is no fault record and no refusal mark, and C is this hardware's 62. -/
def Obligations.ResetLeavesEverythingZero : Prop :=
  (∀ k, readCell State.reset.phys k = 0) ∧ State.reset.fault = none ∧ State.reset.refusal = none ∧
  State.reset.cap = 62 ∧
  ∀ p, (portOf State.reset p).txcsr = 0 ∧ (portOf State.reset p).rxcsr = 0 ∧ (portOf State.reset p).pend = false ∧
    irq State.reset p = false ∧ (portOf State.reset p).lock = .free ∧ (portOf State.reset p).inh = false ∧
    (portOf State.reset p).caller = .idle ∧ (portOf State.reset p).drain = none

/-- The reset event (70 R169): every piece of block and platform state of both ports to its reset value, from any state. -/
def Obligations.ResetEventZeroesBothPorts : Prop :=
  ∀ (s : State) (rest : List Input), s.inputs = .reset :: rest → ∃ t, step s = .next t ∧
    (∀ k, readCell t.phys k = 0) ∧
    ∀ p, (portOf t p).txcsr = 0 ∧ (portOf t p).rxcsr = 0 ∧ (portOf t p).pend = false ∧ irq t p = false ∧
      (portOf t p).lock = .free ∧ (portOf t p).inh = false ∧ (portOf t p).caller = .idle ∧ (portOf t p).drain = none

/-- The invariant holds at reset. -/
def Obligations.InvariantHoldsAtReset : Prop := MachineInv State.reset

/-- Every step keeps the invariant, whatever the input: the cells stay in canonical form, TXCSR holds 0 or DOORBELL
(10 R25), INH is 1 exactly while DRAIN is active (10 R39), the lock is held exactly from D1 to D6, a drain buffer never
exceeds DRAIN_MAX (43 R125), SEND never writes past its words nor outside its ring. -/
def Obligations.EveryStepKeepsTheInvariant : Prop := ∀ (s t : State), MachineInv s → step s = .next t → MachineInv t

/-- The ring invariant holds at reset (70 R170; 10 R31). -/
def Obligations.RingInvariantHoldsAtReset : Prop := RingInv State.reset

/-- Under the discipline the ring invariant is kept and nothing ever faults (10 R31, R46; 43 R125, R129): for every step
whose input is no direct access and no failing acknowledgement, both info registers stay legal and no fault is raised. -/
def Obligations.DisciplinedStepsKeepTheRingsAndNeverFault : Prop :=
  ∀ (s t : State) (e : Input) (rest : List Input), MachineInv s → RingInv s → s.inputs = e :: rest →
    disciplined e = true → step s = .next t → RingInv t ∧ t.fault = s.fault
end

