-- ==== Sys2Proof/Laws/State.lean ====
section
/-! SUPPORT. The small lemmas of State's accessors and updates: what each update leaves, field by field. -/

namespace Sys2Proof.Machine

@[simp] theorem other_other (p : Port) : other (other p) = p := by cases p <;> rfl
@[simp] theorem other_ne (p : Port) : other p ≠ p := by cases p <;> decide
@[simp] theorem ne_other (p : Port) : p ≠ other p := by cases p <;> decide

theorem eq_or_eq_other (p q : Port) : q = p ∨ q = other p := by cases p <;> cases q <;> decide

/-! setPort -/

@[simp] theorem portOf_setPort (s : State) (p : Port) (P : PortState) : portOf (setPort s p P) p = P := by
  cases p <;> rfl
theorem portOf_setPort_ne (s : State) {p q : Port} (P : PortState) (h : q ≠ p) :
    portOf (setPort s p P) q = portOf s q := by
  cases p <;> cases q <;> first | rfl | exact absurd rfl h
@[simp] theorem portOf_setPort_other (s : State) (p : Port) (P : PortState) :
    portOf (setPort s p P) (other p) = portOf s (other p) := portOf_setPort_ne s P (other_ne p)
@[simp] theorem setPort_phys (s : State) (p : Port) (P : PortState) : (setPort s p P).phys = s.phys := by
  cases p <;> rfl
@[simp] theorem setPort_cap (s : State) (p : Port) (P : PortState) : (setPort s p P).cap = s.cap := by
  cases p <;> rfl
@[simp] theorem setPort_fault (s : State) (p : Port) (P : PortState) : (setPort s p P).fault = s.fault := by
  cases p <;> rfl
@[simp] theorem setPort_refusal (s : State) (p : Port) (P : PortState) :
    (setPort s p P).refusal = s.refusal := by cases p <;> rfl
@[simp] theorem setPort_inputs (s : State) (p : Port) (P : PortState) :
    (setPort s p P).inputs = s.inputs := by cases p <;> rfl

/-! modPort -/

@[simp] theorem portOf_modPort (s : State) (p : Port) (f : PortState → PortState) :
    portOf (modPort s p f) p = f (portOf s p) := portOf_setPort s p _
theorem portOf_modPort_ne (s : State) {p q : Port} (f : PortState → PortState) (h : q ≠ p) :
    portOf (modPort s p f) q = portOf s q := portOf_setPort_ne s _ h
@[simp] theorem portOf_modPort_other (s : State) (p : Port) (f : PortState → PortState) :
    portOf (modPort s p f) (other p) = portOf s (other p) := portOf_setPort_other s p _
@[simp] theorem modPort_phys (s : State) (p : Port) (f : PortState → PortState) :
    (modPort s p f).phys = s.phys := setPort_phys s p _
@[simp] theorem modPort_cap (s : State) (p : Port) (f : PortState → PortState) :
    (modPort s p f).cap = s.cap := setPort_cap s p _
@[simp] theorem modPort_fault (s : State) (p : Port) (f : PortState → PortState) :
    (modPort s p f).fault = s.fault := setPort_fault s p _
@[simp] theorem modPort_refusal (s : State) (p : Port) (f : PortState → PortState) :
    (modPort s p f).refusal = s.refusal := setPort_refusal s p _
@[simp] theorem modPort_inputs (s : State) (p : Port) (f : PortState → PortState) :
    (modPort s p f).inputs = s.inputs := setPort_inputs s p _

/-! Updates of the fields outside the ports -/

@[simp] theorem portOf_mk (s : State) (m : Memory) (c : Nat) (f : Option Fault) (r : Option Refusal) (l : List Input)
    (p : Port) : portOf ⟨m, s.a, s.b, c, f, r, l⟩ p = portOf s p := by cases p <;> rfl
@[simp] theorem portOf_withPhys (s : State) (m : Memory) (p : Port) : portOf { s with phys := m } p = portOf s p := by
  cases p <;> rfl
@[simp] theorem portOf_withFault (s : State) (f : Option Fault) (p : Port) :
    portOf { s with fault := f } p = portOf s p := by cases p <;> rfl
@[simp] theorem portOf_withRefusal (s : State) (r : Option Refusal) (p : Port) :
    portOf { s with refusal := r } p = portOf s p := by cases p <;> rfl
@[simp] theorem portOf_withInputs (s : State) (l : List Input) (p : Port) :
    portOf { s with inputs := l } p = portOf s p := by cases p <;> rfl

/-! raiseFault: the record, the ended agent, and nothing else -/

@[simp] theorem raiseFault_phys (ag : Agent) (f : Fault) (s : State) : (raiseFault ag f s).phys = s.phys := by
  simp [raiseFault, endAgent]
@[simp] theorem raiseFault_cap (ag : Agent) (f : Fault) (s : State) : (raiseFault ag f s).cap = s.cap := by
  simp [raiseFault, endAgent]
@[simp] theorem raiseFault_refusal (ag : Agent) (f : Fault) (s : State) :
    (raiseFault ag f s).refusal = s.refusal := by simp [raiseFault, endAgent]
@[simp] theorem raiseFault_inputs (ag : Agent) (f : Fault) (s : State) :
    (raiseFault ag f s).inputs = s.inputs := by simp [raiseFault, endAgent]
@[simp] theorem raiseFault_fault (ag : Agent) (f : Fault) (s : State) :
    (raiseFault ag f s).fault = s.fault.orElse fun _ => some f := by simp [raiseFault, endAgent]
theorem portOf_raiseFault (ag : Agent) (f : Fault) (s : State) :
    portOf (raiseFault ag f s) ag.port =
      match ag.ctx with
      | .direct => { portOf s ag.port with directEnded := true }
      | .caller => { portOf s ag.port with callerEnded := true }
      | .handler => { portOf s ag.port with handlerEnded := true } := by
  cases h : ag.ctx <;> simp [raiseFault, endAgent, h]
theorem portOf_raiseFault_ne (ag : Agent) (f : Fault) (s : State) {q : Port} (h : q ≠ ag.port) :
    portOf (raiseFault ag f s) q = portOf s q := by
  simp [raiseFault, endAgent, portOf_modPort_ne _ _ h]

/-! refuse: the mark, and nothing else -/

@[simp] theorem refuse_phys (r : Refusal) (s : State) : (refuse r s).phys = s.phys := rfl
@[simp] theorem refuse_cap (r : Refusal) (s : State) : (refuse r s).cap = s.cap := rfl
@[simp] theorem refuse_fault (r : Refusal) (s : State) : (refuse r s).fault = s.fault := rfl
@[simp] theorem refuse_inputs (r : Refusal) (s : State) : (refuse r s).inputs = s.inputs := rfl
@[simp] theorem refuse_refusal (r : Refusal) (s : State) :
    (refuse r s).refusal = s.refusal.orElse fun _ => some r := rfl
@[simp] theorem portOf_refuse (r : Refusal) (s : State) (p : Port) : portOf (refuse r s) p = portOf s p := by
  cases p <;> rfl

/-! The sequences' setters -/

@[simp] theorem portOf_setDrain (p : Port) (d : Drain) (s : State) :
    portOf (setDrain p d s) p = { portOf s p with drain := some d } := by simp [setDrain]
@[simp] theorem setDrain_phys (p : Port) (d : Drain) (s : State) : (setDrain p d s).phys = s.phys := by
  simp [setDrain]
@[simp] theorem setDrain_cap (p : Port) (d : Drain) (s : State) : (setDrain p d s).cap = s.cap := by simp [setDrain]
@[simp] theorem setDrain_fault (p : Port) (d : Drain) (s : State) : (setDrain p d s).fault = s.fault := by
  simp [setDrain]
@[simp] theorem setDrain_refusal (p : Port) (d : Drain) (s : State) : (setDrain p d s).refusal = s.refusal := by
  simp [setDrain]
@[simp] theorem setDrain_inputs (p : Port) (d : Drain) (s : State) : (setDrain p d s).inputs = s.inputs := by
  simp [setDrain]
@[simp] theorem portOf_setCaller (p : Port) (c : Caller) (s : State) :
    portOf (setCaller p c s) p = { portOf s p with caller := c } := by simp [setCaller]
@[simp] theorem setCaller_phys (p : Port) (c : Caller) (s : State) : (setCaller p c s).phys = s.phys := by
  simp [setCaller]
@[simp] theorem setCaller_cap (p : Port) (c : Caller) (s : State) : (setCaller p c s).cap = s.cap := by
  simp [setCaller]
@[simp] theorem setCaller_fault (p : Port) (c : Caller) (s : State) : (setCaller p c s).fault = s.fault := by
  simp [setCaller]
@[simp] theorem setCaller_refusal (p : Port) (c : Caller) (s : State) : (setCaller p c s).refusal = s.refusal := by
  simp [setCaller]
@[simp] theorem setCaller_inputs (p : Port) (c : Caller) (s : State) : (setCaller p c s).inputs = s.inputs := by
  simp [setCaller]
@[simp] theorem portOf_setLock (p : Port) (l : Lock) (s : State) :
    portOf (setLock p l s) p = { portOf s p with lock := l } := by simp [setLock]
@[simp] theorem setLock_phys (p : Port) (l : Lock) (s : State) : (setLock p l s).phys = s.phys := by simp [setLock]
@[simp] theorem setLock_cap (p : Port) (l : Lock) (s : State) : (setLock p l s).cap = s.cap := by simp [setLock]
@[simp] theorem setLock_fault (p : Port) (l : Lock) (s : State) : (setLock p l s).fault = s.fault := by
  simp [setLock]
@[simp] theorem setLock_refusal (p : Port) (l : Lock) (s : State) : (setLock p l s).refusal = s.refusal := by
  simp [setLock]
@[simp] theorem setLock_inputs (p : Port) (l : Lock) (s : State) : (setLock p l s).inputs = s.inputs := by
  simp [setLock]

end Sys2Proof.Machine
end

