-- ==== Sys2Proof/Laws/Memory.lean ====
section
/-! SUPPORT. The laws of the shared cells: reading back a write, leaving every other cell alone, keeping the
canonical form; and the port mapping of 10 R23. -/

namespace Sys2Proof.Machine

theorem readCell_consCell_same (k : Nat) (v : Word) (m : Memory) (h : readCell m k = Memory.unlisted) :
    readCell (consCell k v m) k = v := by
  unfold consCell
  split
  · next hv => rw [hv, h]
  · simp [readCell]

theorem readCell_consCell_ne {k k' : Nat} (v : Word) (m : Memory) (h : k' ≠ k) :
    readCell (consCell k v m) k' = readCell m k' := by
  unfold consCell
  split
  · rfl
  · simp [readCell, h.symm]

/-- A cell below every listed index is unlisted. -/
theorem readCell_of_indicesAbove {lo : Nat} {m : Memory} (h : indicesAbove lo m = true) {k : Nat} (hk : k ≤ lo) :
    readCell m k = Memory.unlisted := by
  induction m with
  | nil => rfl
  | cons e m ih =>
    obtain ⟨i, w⟩ := e
    simp only [indicesAbove, List.all_cons, Bool.and_eq_true, decide_eq_true_eq] at h
    have hne : i ≠ k := by omega
    simpa [readCell, hne] using ih (by simpa [indicesAbove] using h.2)

theorem indicesAbove_mono {lo lo' : Nat} {m : Memory} (hle : lo' ≤ lo) (h : indicesAbove lo m = true) :
    indicesAbove lo' m = true := by
  simp only [indicesAbove, List.all_eq_true, decide_eq_true_eq] at h ⊢
  exact fun e he => Nat.lt_of_le_of_lt hle (h e he)

/-- A write reads back, in a memory whose indices rise. -/
theorem readCell_writeCell_same (m : Memory) (k : Nat) (v : Word) (h : indicesRise m = true) :
    readCell (writeCell m k v) k = v := by
  induction m with
  | nil => exact readCell_consCell_same k v [] rfl
  | cons e m ih =>
    obtain ⟨i, w⟩ := e
    simp only [indicesRise, Bool.and_eq_true] at h
    unfold writeCell
    split
    · next hlt => simpa [readCell, Nat.ne_of_lt hlt] using ih h.2
    · split
      · next heq => exact readCell_consCell_same k v m (readCell_of_indicesAbove h.1 (by omega))
      · next hge hne =>
        refine readCell_consCell_same k v _ ?_
        have hm := readCell_of_indicesAbove h.1 (k := k) (by omega)
        simpa [readCell, hne] using hm

/-- A write leaves every other cell as it was. -/
theorem readCell_writeCell_ne (m : Memory) {k k' : Nat} (v : Word) (h : k' ≠ k) :
    readCell (writeCell m k v) k' = readCell m k' := by
  induction m with
  | nil => exact readCell_consCell_ne v [] h
  | cons e m ih =>
    obtain ⟨i, w⟩ := e
    unfold writeCell
    split
    · simp [readCell, ih]
    · split
      · next heq =>
        rw [readCell_consCell_ne v m h]
        have : i ≠ k' := by omega
        simp [readCell, this]
      · exact readCell_consCell_ne v _ h

theorem indicesAbove_consCell {lo k : Nat} {v : Word} {m : Memory} (hk : lo < k) (h : indicesAbove lo m = true) :
    indicesAbove lo (consCell k v m) = true := by
  unfold consCell
  split
  · exact h
  · simpa [indicesAbove, hk] using h

theorem indicesAbove_writeCell {lo k : Nat} {v : Word} {m : Memory} (hk : lo < k) (h : indicesAbove lo m = true) :
    indicesAbove lo (writeCell m k v) = true := by
  induction m with
  | nil => exact indicesAbove_consCell hk rfl
  | cons e m ih =>
    obtain ⟨i, w⟩ := e
    have h' : lo < i ∧ indicesAbove lo m = true := by simpa [indicesAbove] using h
    unfold writeCell
    split
    · have := ih h'.2
      simpa [indicesAbove, h'.1] using this
    · split
      · exact indicesAbove_consCell hk h'.2
      · exact indicesAbove_consCell hk h

theorem indicesRise_consCell {k : Nat} {v : Word} {m : Memory} (hk : indicesAbove k m = true)
    (h : indicesRise m = true) : indicesRise (consCell k v m) = true := by
  unfold consCell
  split
  · exact h
  · simp [indicesRise, hk, h]

theorem indicesRise_writeCell {k : Nat} {v : Word} {m : Memory} (h : indicesRise m = true) :
    indicesRise (writeCell m k v) = true := by
  induction m with
  | nil => exact indicesRise_consCell rfl rfl
  | cons e m ih =>
    obtain ⟨i, w⟩ := e
    have h' : indicesAbove i m = true ∧ indicesRise m = true := by simpa [indicesRise] using h
    unfold writeCell
    split
    · next hlt => simp [indicesRise, indicesAbove_writeCell hlt h'.1, ih h'.2]
    · split
      · next heq => exact indicesRise_consCell (heq ▸ h'.1) h'.2
      · next hge hne =>
        refine indicesRise_consCell ?_ h
        have hlt : k < i := by omega
        have hm := indicesAbove_mono (Nat.le_of_lt hlt) h'.1
        simpa [indicesAbove, hlt] using hm

/-- Whether an entry may stand in a memory in canonical form. -/
def entryOk (e : Nat × Word) : Bool := isShared e.1 && decide (e.2 ≠ Memory.unlisted)

theorem all_consCell {k : Nat} {v : Word} {m : Memory} (hk : isShared k = true) (h : m.all entryOk = true) :
    (consCell k v m).all entryOk = true := by
  unfold consCell
  split
  · exact h
  · next hv => simpa [entryOk, hk, hv] using h

theorem all_writeCell {k : Nat} {v : Word} {m : Memory} (hk : isShared k = true) (h : m.all entryOk = true) :
    (writeCell m k v).all entryOk = true := by
  induction m with
  | nil => exact all_consCell hk rfl
  | cons e m ih =>
    obtain ⟨i, w⟩ := e
    have h' : entryOk (i, w) = true ∧ m.all entryOk = true := by simpa using h
    unfold writeCell
    split
    · have := ih h'.2
      simp only [List.all_cons, h'.1, this, Bool.and_self]
    · split
      · exact all_consCell hk h'.2
      · exact all_consCell hk h

theorem wf_iff (m : Memory) : m.wf = true ↔ indicesRise m = true ∧ m.all entryOk = true := by
  simp only [Memory.wf, Bool.and_eq_true]
  rfl

/-- Every store to an existing cell keeps the canonical form. -/
theorem writeCell_wf {m : Memory} {k : Nat} (v : Word) (hk : isShared k = true) (h : m.wf = true) :
    (writeCell m k v).wf = true := by
  rw [wf_iff] at h ⊢
  exact ⟨indicesRise_writeCell h.1, all_writeCell hk h.2⟩

theorem nil_wf : Memory.wf [] = true := rfl

/-! The port mapping of 10 R23. -/

theorem xor_64_of_lt {i : Nat} (h : i < 64) : i ^^^ 64 = i + 64 := by
  have := (by decide : ∀ i : Fin 64, i.val ^^^ 64 = i.val + 64)
  exact this ⟨i, h⟩

theorem xor_64_of_ge {i : Nat} (h : 64 ≤ i) (h' : i < 128) : i ^^^ 64 = i - 64 := by
  have := (by decide : ∀ i : Fin 64, (i.val + 64) ^^^ 64 = i.val)
  have := this ⟨i - 64, by omega⟩
  simp only at this
  rwa [Nat.sub_add_cancel h] at this

@[simp] theorem physIndex_a (i : Nat) : physIndex .a i = i := rfl
theorem physIndex_b_of_lt {i : Nat} (h : i < 64) : physIndex .b i = i + 64 := xor_64_of_lt h
theorem physIndex_b_of_ge {i : Nat} (h : 64 ≤ i) (h' : i < 128) : physIndex .b i = i - 64 := xor_64_of_ge h h'

/-- What a port reaches at an index that is not a CSR's is a shared cell. -/
theorem isShared_physIndex (p : Port) {i : Nat} (h : i < 128) (h1 : i ≠ 63) (h2 : i ≠ 127) :
    isShared (physIndex p i) = true := by
  cases p
  · rw [physIndex_a, isShared, decide_eq_true_eq]; omega
  · rcases Nat.lt_or_ge i 64 with hi | hi
    · rw [physIndex_b_of_lt hi]; simp only [isShared, decide_eq_true_eq]; omega
    · rw [physIndex_b_of_ge hi h]; simp only [isShared, decide_eq_true_eq]; omega

/-- One window is the other with bit 6 of the index flipped. -/
theorem physIndex_other (p : Port) (i : Nat) : physIndex (other p) (i ^^^ 64) = physIndex p i := by
  cases p
  · simp [physIndex, other]
  · rfl

end Sys2Proof.Machine
end

