-- ==== Sys2Proof/Laws/Ops.lean ====
section
/-! SUPPORT. One lemma per shared operation that says everything it can do: the accessor's two accesses, the codec
and the pointer functions. -/

namespace Sys2Proof.Machine

open Sys2Proof.Safety

/-! The accessor. -/

/-- A read below 128 answers the view; it never stops. -/
theorem memRead_of_lt (s : State) (p : Port) {i : Nat} (h : i < 128) : memRead s p i = .ok (view s p i) := by
  simp [memRead, Config.ncells, Nat.not_le.mpr h]

/-- A read at 128 or above is the index fault (40 R84). -/
theorem memRead_of_ge (s : State) (p : Port) {i : Nat} (h : 128 ≤ i) : memRead s p i = .error (.idxRange p i false) := by
  simp [memRead, Config.ncells, h]

/-- The view of an index that is not a CSR's. -/
theorem view_cell (s : State) (p : Port) {i : Nat} (h1 : i ≠ 63) (h2 : i ≠ 127) :
    view s p i = readCell s.phys (physIndex p i) := by
  simp [view, Config.txCsr, Config.rxCsr, h1, h2]

@[simp] theorem view_txCsr (s : State) (p : Port) : view s p 63 = (portOf s p).txcsr := rfl
@[simp] theorem view_rxCsr (s : State) (p : Port) : view s p 127 = (portOf s p).rxcsr := rfl

/-- A write at 128 or above is the index fault (40 R84). -/
theorem memWrite_of_ge (s : State) (p : Port) {i : Nat} (v : Word) (h : 128 ≤ i) :
    memWrite s p i v = .error (.fault (.idxRange p i true)) := by
  simp [memWrite, Config.ncells, h]

/-- A write of an index that is not a CSR's stores the cell. -/
theorem memWrite_cell (s : State) (p : Port) {i : Nat} (v : Word) (h : i < 128) (h1 : i ≠ 63) (h2 : i ≠ 127) :
    memWrite s p i v = .ok { s with phys := writeCell s.phys (physIndex p i) v } := by
  simp [memWrite, Config.ncells, Config.txCsr, Config.rxCsr, Nat.not_le.mpr h, h1, h2]

/-- The doorbell (40 R89). -/
theorem memWrite_doorbell (s : State) (p : Port) :
    memWrite s p 63 Config.doorbell =
      .ok (modPort (modPort s p fun P => { P with txcsr := Config.doorbell }) (other p)
        fun P => { P with pend := true }) := rfl

/-- A write of TX_CSR that is no doorbell is refused (40 R89). -/
theorem memWrite_notDoorbell (s : State) (p : Port) {v : Word} (h : v ≠ Config.doorbell) :
    memWrite s p 63 v = .error (.refuse .doorbellValue) := by
  simp [memWrite, Config.ncells, Config.txCsr, txcsrWrite, h]

/-- A write of RX_CSR stores and clears PEND (40 R96). -/
theorem memWrite_rxCsr (s : State) (p : Port) (v : Word) :
    memWrite s p 127 v = .ok (modPort s p fun P => { P with rxcsr := v, pend := false }) := rfl

/-- Everything a write that is performed can have done. -/
theorem memWrite_ok {s t : State} {p : Port} {i : Nat} {v : Word} (h : memWrite s p i v = .ok t) :
    (i < 128 ∧ i ≠ 63 ∧ i ≠ 127 ∧ t = { s with phys := writeCell s.phys (physIndex p i) v }) ∨
    (i = 63 ∧ v = Config.doorbell ∧
      t = modPort (modPort s p fun P => { P with txcsr := v }) (other p) fun P => { P with pend := true }) ∨
    (i = 127 ∧ t = modPort s p fun P => { P with rxcsr := v, pend := false }) := by
  rcases Nat.lt_or_ge i 128 with hi | hi
  · by_cases h1 : i = 63
    · subst h1
      by_cases hv : v = Config.doorbell
      · subst hv
        rw [memWrite_doorbell] at h
        cases h
        exact .inr (.inl ⟨rfl, rfl, rfl⟩)
      · rw [memWrite_notDoorbell s p hv] at h
        cases h
    · by_cases h2 : i = 127
      · subst h2
        rw [memWrite_rxCsr] at h
        cases h
        exact .inr (.inr ⟨rfl, rfl⟩)
      · rw [memWrite_cell s p v hi h1 h2] at h
        cases h
        exact .inl ⟨hi, h1, h2, rfl⟩
  · rw [memWrite_of_ge s p v hi] at h
    cases h

/-- How a write that is not performed stops: the index, or the doorbell value (60 R145). -/
theorem memWrite_error {s : State} {p : Port} {i : Nat} {v : Word} {st : Stop} (h : memWrite s p i v = .error st) :
    (128 ≤ i ∧ st = .fault (.idxRange p i true)) ∨
    (i = 63 ∧ v ≠ Config.doorbell ∧ st = .refuse .doorbellValue) := by
  rcases Nat.lt_or_ge i 128 with hi | hi
  · by_cases h1 : i = 63
    · subst h1
      by_cases hv : v = Config.doorbell
      · subst hv
        rw [memWrite_doorbell] at h
        cases h
      · rw [memWrite_notDoorbell s p hv] at h
        cases h
        exact .inr ⟨rfl, hv, rfl⟩
    · by_cases h2 : i = 127
      · subst h2
        rw [memWrite_rxCsr] at h
        cases h
      · rw [memWrite_cell s p v hi h1 h2] at h
        cases h
  · rw [memWrite_of_ge s p v hi] at h
    cases h
    exact .inl ⟨hi, rfl⟩

/-! The codec, on numbers. -/

theorem headGet_eq (w : Word) : headGet w = w.toNat % 256 := by
  simp [headGet, BitVec.extractLsb'_toNat]

theorem tailGet_eq (w : Word) : tailGet w = w.toNat / 256 % 256 := by
  simp [tailGet, BitVec.extractLsb'_toNat, Nat.shiftRight_eq_div_pow]

theorem csrValid_eq (w : Word) : csrValid w = w.toNat % 2 ^ 63 := by
  simp [csrValid, validField, BitVec.extractLsb'_toNat]

/-! The pointer functions, on numbers. -/

theorem modCap_of_lt {c v : Nat} (h : v < 2 * c) : modCap c v = .ok (v % c) := by
  unfold modCap
  rw [if_neg (by omega)]
  split
  · next hc => rw [Nat.mod_eq_sub_mod hc, Nat.mod_eq_of_lt (by omega)]
  · next hc => rw [Nat.mod_eq_of_lt (by omega)]

theorem adv_of_lt {c i : Nat} (h : i < c) : adv c i = .ok ((i + 1) % c) := by
  unfold adv
  rw [if_neg (by omega), modCap_of_lt (by omega)]

theorem used_of_lt {c head tail : Nat} (hh : head < c) (ht : tail < c) :
    used c head tail = .ok ((tail + c - head) % c) := by
  unfold used
  rw [if_neg (by omega), if_neg (by omega), modCap_of_lt (by omega)]

/-- The remainder form of the occupancy is its two-case form (42 R109). -/
theorem used_eq_occupancy {c head tail : Nat} (hh : head < c) (ht : tail < c) :
    (tail + c - head) % c = occupancy c head tail := by
  unfold occupancy
  split
  · rw [show tail + c - head = (tail - head) + c by omega, Nat.add_mod_right, Nat.mod_eq_of_lt (by omega)]
  · rw [Nat.mod_eq_of_lt (by omega)]

end Sys2Proof.Machine
end

