-- ==== Sys2Proof/Laws/Codec.lean ====
section
/-! SUPPORT. The codec on numbers: what the packs, the reserved bits and CSR.MAKE are as unsigned values (41). -/

namespace Sys2Proof.Machine

/-- HEAD_MASK bit by bit. -/
theorem headMask_bit {i : Nat} (h : i < 64) : headMask.getLsbD i = decide (i < 8) := by
  have := (by decide : ∀ i : Fin 64, headMask.getLsbD i.val = decide (i.val < 8))
  exact this ⟨i, h⟩
/-- TAIL_MASK bit by bit. -/
theorem tailMask_bit {i : Nat} (h : i < 64) : tailMask.getLsbD i = decide (8 ≤ i ∧ i < 16) := by
  have := (by decide : ∀ i : Fin 64, tailMask.getLsbD i.val = decide (8 ≤ i.val ∧ i.val < 16))
  exact this ⟨i, h⟩

/-- HEAD.PACK of a value below C: the low byte replaced (41 R102). -/
theorem headPack_of_lt {c : Nat} {reg : Word} {h : Nat} (hc : c ≤ 62) (hh : h < c) :
    headPack c reg h = .ok (BitVec.ofNat 64 (reg.toNat / 256 * 256 + h)) := by
  unfold headPack
  rw [if_neg (by omega)]
  congr 1
  apply BitVec.eq_of_getLsbD_eq
  intro i hi
  have h8 : h < 2 ^ 8 := by omega
  have hv : reg.toNat / 256 * 256 + h = 2 ^ 8 * (reg.toNat / 2 ^ 8) + h := by omega
  simp only [BitVec.getLsbD_or, BitVec.getLsbD_and, BitVec.getLsbD_not, BitVec.getLsbD_ofNat, headMask_bit hi, hi, hv,
    decide_true, Bool.true_and, Nat.testBit_two_pow_mul_add _ h8]
  by_cases hlt : i < 8
  · simp [hlt]
  · have h0 : h.testBit i = false :=
      Nat.testBit_lt_two_pow (Nat.lt_of_lt_of_le h8 (Nat.pow_le_pow_right (by omega) (by omega)))
    rw [Nat.testBit_div_two_pow]
    simp [hlt, h0, BitVec.getLsbD, Nat.sub_add_cancel (Nat.le_of_not_lt hlt)]

/-- TAIL.PACK of a value below C: the second byte replaced (41 R103). -/
theorem tailPack_of_lt {c : Nat} {reg : Word} {t : Nat} (hc : c ≤ 62) (ht : t < c) :
    tailPack c reg t = .ok (BitVec.ofNat 64 (reg.toNat / 65536 * 65536 + t * 256 + reg.toNat % 256)) := by
  unfold tailPack
  rw [if_neg (by omega)]
  congr 1
  apply BitVec.eq_of_getLsbD_eq
  intro i hi
  have h8 : t < 2 ^ 8 := by omega
  have hv : reg.toNat / 65536 * 65536 + t * 256 + reg.toNat % 256
      = 2 ^ 8 * (2 ^ 8 * (reg.toNat / 2 ^ 16) + t) + reg.toNat % 2 ^ 8 := by omega
  have hm : reg.toNat % 2 ^ 8 < 2 ^ 8 := Nat.mod_lt _ (by omega)
  simp only [BitVec.getLsbD_or, BitVec.getLsbD_and, BitVec.getLsbD_not, BitVec.getLsbD_ofNat, BitVec.getLsbD_shiftLeft,
    tailMask_bit hi, hi, hv, decide_true, Bool.true_and, Nat.testBit_two_pow_mul_add _ hm,
    Nat.testBit_two_pow_mul_add _ h8]
  by_cases h1 : i < 8
  · rw [Nat.testBit_mod_two_pow]
    simp [h1, BitVec.getLsbD, show ¬ 8 ≤ i by omega]
  · by_cases h2 : i < 16
    · simp [h1, h2, show 8 ≤ i by omega, show i - 8 < 8 by omega, show i - 8 < 64 by omega]
    · have h0 : t.testBit (i - 8) = false :=
        Nat.testBit_lt_two_pow (Nat.lt_of_lt_of_le h8 (Nat.pow_le_pow_right (by omega) (by omega)))
      rw [Nat.testBit_div_two_pow, show i - 8 - 8 + 16 = i by omega]
      simp [h1, h2, h0, show ¬ (i - 8 < 8) by omega, BitVec.getLsbD]

/-- The values the packs return fit in 64 bits. -/
theorem packs_toNat (reg : Word) {x : Nat} (h : x < 256) :
    (BitVec.ofNat 64 (reg.toNat / 256 * 256 + x)).toNat = reg.toNat / 256 * 256 + x ∧
    (BitVec.ofNat 64 (reg.toNat / 65536 * 65536 + x * 256 + reg.toNat % 256)).toNat =
      reg.toNat / 65536 * 65536 + x * 256 + reg.toNat % 256 := by
  have := reg.isLt
  constructor <;> rw [BitVec.toNat_ofNat, Nat.mod_eq_of_lt (by omega)]

/-- The reserved bits 63:16 as a number. -/
theorem rsvd_toNat (w : Word) : (w &&& rsvdMask).toNat = w.toNat / 65536 * 65536 := by
  have hb : ∀ i : Fin 64, rsvdMask.getLsbD i.val = decide (16 ≤ i.val) := by decide
  apply Nat.eq_of_testBit_eq
  intro i
  have hv : w.toNat / 65536 * 65536 = 2 ^ 16 * (w.toNat / 2 ^ 16) + 0 := by omega
  rw [hv, Nat.testBit_two_pow_mul_add _ (by omega)]
  by_cases hi : i < 64
  · have := hb ⟨i, hi⟩
    simp only at this
    change (w &&& rsvdMask).getLsbD i = _
    rw [BitVec.getLsbD_and, this]
    by_cases h2 : i < 16
    · simp [h2]
    · rw [Nat.testBit_div_two_pow, show i - 16 + 16 = i by omega]
      simp [h2, BitVec.getLsbD, show 16 ≤ i by omega]
  · have h0 : (w &&& rsvdMask).toNat.testBit i = false := by
      change (w &&& rsvdMask).getLsbD i = _
      exact BitVec.getLsbD_of_ge _ _ (by omega)
    rw [h0]
    split
    · simp
    · rw [Nat.testBit_div_two_pow]
      symm
      change w.getLsbD _ = _
      exact BitVec.getLsbD_of_ge _ _ (by omega)

/-- CSR.MAKE of inputs that fit (41 R106). -/
theorem csrMake_of_le {en valid : Nat} (he : en ≤ 1) (hv : valid < 2 ^ 63) :
    csrMake en valid = .ok (BitVec.ofNat 64 (en * 2 ^ 63 + valid)) := by
  unfold csrMake
  rw [if_neg (by omega), if_neg (by omega)]
  congr 1
  apply BitVec.eq_of_toNat_eq
  rcases Nat.le_one_iff_eq_zero_or_eq_one.mp he with rfl | rfl
  · simp
  · apply Nat.eq_of_testBit_eq
    intro i
    have h1 : (BitVec.ofNat 64 (1 * 2 ^ 63 + valid)).toNat = 2 ^ 63 * 1 + valid := by
      rw [BitVec.toNat_ofNat, Nat.mod_eq_of_lt (by omega)]; omega
    have h2 : (BitVec.ofNat 64 valid).toNat = valid := by
      rw [BitVec.toNat_ofNat, Nat.mod_eq_of_lt (by omega)]
    rw [BitVec.toNat_or, h1, h2, Nat.two_pow_add_eq_or_of_lt hv]
    rfl

end Sys2Proof.Machine
end

