-- ==== Sys2Proof/Laws/Decode.lean ====
section
/-! SUPPORT. The fields of the words the encoder builds (30 R69, R70), and the class of each index (30 R73). -/

namespace Sys2Proof

@[simp] theorem opwIdx_busWord (we : Bool) (i : BitVec 7) : opwIdx (busWord we i) = i := by revert we i; decide
@[simp] theorem opwWe_busWord (we : Bool) (i : BitVec 7) : opwWe (busWord we i) = we := by revert we i; decide
@[simp] theorem opwIsFunc_busWord (we : Bool) (i : BitVec 7) : opwIsFunc (busWord we i) = false := by
  revert we i; decide
@[simp] theorem opwIsFunc_funcWord (k : BitVec 4) : opwIsFunc (funcWord k) = true := by revert k; decide
@[simp] theorem opwZ_funcWord (k : BitVec 4) : opwZ (funcWord k) = 0#4 := by revert k; decide
@[simp] theorem opwFsel_funcWord (k : BitVec 4) : opwFsel (funcWord k) = k.toNat := by revert k; decide

/-- The fields of an operation word as numbers (30 R68, R69). -/
theorem opw_fields (w : BitVec 9) : opwIsFunc w = decide (0x100 ≤ w.toNat) ∧
    opwWe w = decide (0x080 ≤ w.toNat % 0x100) ∧ (opwIdx w).toNat = w.toNat % 0x080 := by revert w; decide

/-- Only a FUNC word is rejected (30 R76). -/
theorem isFunc_of_decode_error {r : Request} {e : DecodeError} (h : decode r = .error e) : 0x100 ≤ r.opw.toNat := by
  unfold decode at h
  split at h
  · next hf => rwa [(opw_fields r.opw).1, decide_eq_true_eq] at hf
  · split at h <;> cases h

/-- A BUS write word decodes by the class of its index (30 R75). -/
theorem decode_busWord_write (p : Port) (i : BitVec 7) (v : Word) (x y : Nat) :
    decode ⟨p, busWord true i, v, x, y⟩ = .ok (wrOf p i v) := by simp [decode]

/-- A BUS read word decodes by the class of its index (30 R75). -/
theorem decode_busWord_read (p : Port) (i : BitVec 7) (v : Word) (x y : Nat) :
    decode ⟨p, busWord false i, v, x, y⟩ = .ok (rdOf p i) := by simp [decode]

theorem rdOf_txSlot (p : Port) {i : BitVec 7} (h : isTxSlotIdx i = true) : rdOf p i = .rdTxSlot p i := by
  rw [isTxSlotIdx, decide_eq_true_eq] at h
  simp [rdOf, h]

theorem wrOf_txSlot (p : Port) {i : BitVec 7} (v : Word) (h : isTxSlotIdx i = true) :
    wrOf p i v = .wrTxSlot p i v := by
  rw [isTxSlotIdx, decide_eq_true_eq] at h
  simp [wrOf, h]

theorem rdOf_rxSlot (p : Port) {i : BitVec 7} (h : isRxSlotIdx i = true) : rdOf p i = .rdRxSlot p i := by
  rw [isRxSlotIdx, decide_eq_true_eq] at h
  rw [rdOf, if_neg (by omega), if_neg (by omega), if_neg (by omega), if_pos h.2]

theorem wrOf_rxSlot (p : Port) {i : BitVec 7} (v : Word) (h : isRxSlotIdx i = true) :
    wrOf p i v = .wrRxSlot p i v := by
  rw [isRxSlotIdx, decide_eq_true_eq] at h
  rw [wrOf, if_neg (by omega), if_neg (by omega), if_neg (by omega), if_pos h.2]

end Sys2Proof
end

