-- ==== Sys2Proof/Laws/PerInstr.lean ====
section
/-! SUPPORT. Operation by operation: the word of a well-formed operation is the one its row of the opcode table gives
(30 R73, R74), and it is of its row only: its bits under the row's mask are the row's match, and it lies in the row's
range of words. -/

namespace Sys2Proof.Laws.OpcodeRow

/-- A row of the opcode table: the fixed bits, their mask, the first and the last word of the row. -/
structure Row where
  fixed : BitVec 9
  mask  : BitVec 9
  first : Nat
  last  : Nat
  deriving DecidableEq, Repr

/-- The row of an operation. -/
def rowOf : Instr → Row
  | .rdTxSlot _ _ => ⟨0x000, 0x1C0, 0x000, 0x03D⟩
  | .wrTxSlot _ _ _ => ⟨0x080, 0x1C0, 0x080, 0x0BD⟩
  | .rdTxIr _ => ⟨0x03E, 0x1FF, 0x03E, 0x03E⟩
  | .wrTxIr _ _ => ⟨0x0BE, 0x1FF, 0x0BE, 0x0BE⟩
  | .rdTxCsr _ => ⟨0x03F, 0x1FF, 0x03F, 0x03F⟩
  | .wrTxCsr _ _ => ⟨0x0BF, 0x1FF, 0x0BF, 0x0BF⟩
  | .rdRxSlot _ _ => ⟨0x040, 0x1C0, 0x040, 0x07D⟩
  | .wrRxSlot _ _ _ => ⟨0x0C0, 0x1C0, 0x0C0, 0x0FD⟩
  | .rdRxIr _ => ⟨0x07E, 0x1FF, 0x07E, 0x07E⟩
  | .wrRxIr _ _ => ⟨0x0FE, 0x1FF, 0x0FE, 0x0FE⟩
  | .rdRxCsr _ => ⟨0x07F, 0x1FF, 0x07F, 0x07F⟩
  | .wrRxCsr _ _ => ⟨0x0FF, 0x1FF, 0x0FF, 0x0FF⟩
  | .headGet _ _ => ⟨0x100, 0x1FF, 0x100, 0x100⟩
  | .tailGet _ _ => ⟨0x101, 0x1FF, 0x101, 0x101⟩
  | .headPack _ _ _ => ⟨0x102, 0x1FF, 0x102, 0x102⟩
  | .tailPack _ _ _ => ⟨0x103, 0x1FF, 0x103, 0x103⟩
  | .csrEn _ _ => ⟨0x104, 0x1FF, 0x104, 0x104⟩
  | .csrValid _ _ => ⟨0x105, 0x1FF, 0x105, 0x105⟩
  | .csrMake _ _ _ => ⟨0x106, 0x1FF, 0x106, 0x106⟩
  | .modCap _ _ => ⟨0x107, 0x1FF, 0x107, 0x107⟩
  | .adv _ _ => ⟨0x108, 0x1FF, 0x108, 0x108⟩
  | .used _ _ _ => ⟨0x109, 0x1FF, 0x109, 0x109⟩
  | .free _ _ _ => ⟨0x10A, 0x1FF, 0x10A, 0x10A⟩

/-- The word `w` is a word of the row. -/
def inRow (r : Row) (w : BitVec 9) : Bool :=
  decide (w &&& r.mask = r.fixed) && decide (r.first ≤ w.toNat) && decide (w.toNat ≤ r.last)

/-- A well-formed operation is encoded as a word of its row. -/
def Statement (i : Instr) : Prop := i.wf = true → inRow (rowOf i) (encode i).opw = true

theorem rdTxSlot (p : Port) (i : BitVec 7) : Statement (.rdTxSlot p i) := by
  have h : ∀ i : BitVec 7, isTxSlotIdx i = true → inRow ⟨0x000, 0x1C0, 0x000, 0x03D⟩ (busWord false i) = true := by
    decide
  exact h i
theorem wrTxSlot (p : Port) (i : BitVec 7) (v : Word) : Statement (.wrTxSlot p i v) := by
  have h : ∀ i : BitVec 7, isTxSlotIdx i = true → inRow ⟨0x080, 0x1C0, 0x080, 0x0BD⟩ (busWord true i) = true := by
    decide
  exact h i
theorem rdTxIr (p : Port) : Statement (.rdTxIr p) := fun _ => by simp only [rowOf, encode]; decide
theorem wrTxIr (p : Port) (v : Word) : Statement (.wrTxIr p v) := fun _ => by simp only [rowOf, encode]; decide
theorem rdTxCsr (p : Port) : Statement (.rdTxCsr p) := fun _ => by simp only [rowOf, encode]; decide
theorem wrTxCsr (p : Port) (v : Word) : Statement (.wrTxCsr p v) := fun _ => by simp only [rowOf, encode]; decide
theorem rdRxSlot (p : Port) (i : BitVec 7) : Statement (.rdRxSlot p i) := by
  have h : ∀ i : BitVec 7, isRxSlotIdx i = true → inRow ⟨0x040, 0x1C0, 0x040, 0x07D⟩ (busWord false i) = true := by
    decide
  exact h i
theorem wrRxSlot (p : Port) (i : BitVec 7) (v : Word) : Statement (.wrRxSlot p i v) := by
  have h : ∀ i : BitVec 7, isRxSlotIdx i = true → inRow ⟨0x0C0, 0x1C0, 0x0C0, 0x0FD⟩ (busWord true i) = true := by
    decide
  exact h i
theorem rdRxIr (p : Port) : Statement (.rdRxIr p) := fun _ => by simp only [rowOf, encode]; decide
theorem wrRxIr (p : Port) (v : Word) : Statement (.wrRxIr p v) := fun _ => by simp only [rowOf, encode]; decide
theorem rdRxCsr (p : Port) : Statement (.rdRxCsr p) := fun _ => by simp only [rowOf, encode]; decide
theorem wrRxCsr (p : Port) (v : Word) : Statement (.wrRxCsr p v) := fun _ => by simp only [rowOf, encode]; decide
theorem headGet (p : Port) (reg : Word) : Statement (.headGet p reg) := fun _ => by simp only [rowOf, encode]; decide
theorem tailGet (p : Port) (reg : Word) : Statement (.tailGet p reg) := fun _ => by simp only [rowOf, encode]; decide
theorem headPack (p : Port) (reg : Word) (h : Nat) : Statement (.headPack p reg h) := fun _ => by
  simp only [rowOf, encode]; decide
theorem tailPack (p : Port) (reg : Word) (t : Nat) : Statement (.tailPack p reg t) := fun _ => by
  simp only [rowOf, encode]; decide
theorem csrEn (p : Port) (csr : Word) : Statement (.csrEn p csr) := fun _ => by simp only [rowOf, encode]; decide
theorem csrValid (p : Port) (csr : Word) : Statement (.csrValid p csr) := fun _ => by simp only [rowOf, encode]; decide
theorem csrMake (p : Port) (en : Nat) (valid : Nat) : Statement (.csrMake p en valid) := fun _ => by
  simp only [rowOf, encode]; decide
theorem modCap (p : Port) (v : Nat) : Statement (.modCap p v) := fun _ => by simp only [rowOf, encode]; decide
theorem adv (p : Port) (k : Nat) : Statement (.adv p k) := fun _ => by simp only [rowOf, encode]; decide
theorem used (p : Port) (head : Nat) (tail : Nat) : Statement (.used p head tail) := fun _ => by
  simp only [rowOf, encode]; decide
theorem free (p : Port) (head : Nat) (tail : Nat) : Statement (.free p head tail) := fun _ => by
  simp only [rowOf, encode]; decide

end Sys2Proof.Laws.OpcodeRow
end

