-- ==== Sys2Proof/Laws/Sequences.lean ====
section
/-! SUPPORT. Runs of the reference sequences (43): a state written as "port p at P, memory m, inputs l", one lemma per
kind of step on it, and what the two loops D4 and Sd do, by induction on the number of words. -/

namespace Sys2Proof.Machine

open Sys2Proof.Safety

/-! Cells by name. -/

theorem physIndex_txSlot (p : Port) {i : Nat} (h : i ≤ 61) : physIndex p i = sendSlotCell p i := by
  cases p
  · rfl
  · rw [physIndex_b_of_lt (by omega)]
    simp only [sendSlotCell]
    omega

theorem physIndex_rxSlot (p : Port) {i : Nat} (h : 64 ≤ i) (h' : i ≤ 125) : physIndex p i = recvSlotCell p i := by
  cases p
  · rfl
  · rw [physIndex_b_of_ge h (by omega)]
    rfl

theorem physIndex_txIr (p : Port) : physIndex p 62 = irCell p := by cases p <;> rfl
theorem physIndex_rxIr (p : Port) : physIndex p 126 = irCell (other p) := by cases p <;> rfl
theorem irOf_eq (s : State) (p : Port) : irOf s p = readCell s.phys (irCell p) := by
  rw [irOf, Config.txIr, physIndex_txIr]
theorem isShared_irCell (p : Port) : isShared (irCell p) = true := by cases p <;> rfl
theorem isShared_sendSlotCell (p : Port) {i : Nat} (h : i ≤ 61) : isShared (sendSlotCell p i) = true := by
  rw [← physIndex_txSlot p h]
  exact isShared_physIndex p (by omega) (by omega) (by omega)
theorem sendSlotCell_inj (p : Port) {i j : Nat} (h : sendSlotCell p i = sendSlotCell p j) : i = j := by
  cases p <;> simp only [sendSlotCell] at h <;> omega
theorem sendSlotCell_ne_irCell (p q : Port) {i : Nat} (h : i ≤ 61) : sendSlotCell p i ≠ irCell q := by
  cases p <;> cases q <;> simp only [sendSlotCell, irCell] <;> omega
theorem indicesRise_of_wf {m : Memory} (h : m.wf = true) : indicesRise m = true := ((wf_iff m).mp h).1

/-! What a pack does to an info register (41 R102, R103). -/

theorem headPack_fields {c : Nat} {w v : Word} {x : Nat} (hc : c ≤ 62) (hx : x < c) (h : headPack c w x = .ok v) :
    headGet v = x ∧ tailGet v = tailGet w ∧ v &&& rsvdMask = w &&& rsvdMask := by
  rw [headPack_of_lt hc hx] at h
  cases h
  have hp := (packs_toNat w (x := x) (by omega)).1
  refine ⟨?_, ?_, BitVec.eq_of_toNat_eq ?_⟩
  · rw [headGet_eq, hp]; omega
  · rw [tailGet_eq, tailGet_eq, hp]; omega
  · rw [rsvd_toNat, rsvd_toNat, hp]; omega

theorem tailPack_fields {c : Nat} {w v : Word} {x : Nat} (hc : c ≤ 62) (hx : x < c) (h : tailPack c w x = .ok v) :
    tailGet v = x ∧ headGet v = headGet w ∧ v &&& rsvdMask = w &&& rsvdMask := by
  rw [tailPack_of_lt hc hx] at h
  cases h
  have hp := (packs_toNat w (x := x) (by omega)).2
  refine ⟨?_, ?_, BitVec.eq_of_toNat_eq ?_⟩
  · rw [tailGet_eq, hp]; omega
  · rw [headGet_eq, headGet_eq, hp]; omega
  · rw [rsvd_toNat, rsvd_toNat, hp]; omega

/-- The re-arm value of D2 (43 R122): the register with EN set. -/
theorem csrMake_rearm (c : Word) : csrMake 1 (validField c).toNat = .ok (c ||| enMask) := by
  unfold csrMake
  rw [if_neg (by omega), if_neg (by have := (validField c).isLt; omega)]
  congr 1
  apply BitVec.eq_of_getLsbD_eq
  intro i hi
  have hb : ∀ i : Fin 64, enMask.getLsbD i.val = decide (i.val = 63) ∧
      (BitVec.ofNat 64 1 <<< 63).getLsbD i.val = decide (i.val = 63) := by decide
  have := hb ⟨i, hi⟩
  simp only at this
  rw [BitVec.getLsbD_or, BitVec.getLsbD_or, this.1, this.2]
  have hv : (BitVec.ofNat 64 (validField c).toNat).getLsbD i = (decide (i < 63) && c.getLsbD i) := by
    rw [BitVec.getLsbD_ofNat]
    simp only [hi, decide_true, Bool.true_and]
    show (validField c).getLsbD i = _
    simp [validField]
  rw [hv]
  by_cases h : i = 63
  · subst h
    simp
  · have : i < 63 := by omega
    simp [h, this]

/-! A state with one port, the memory and the inputs written out. -/

/-- `s` with memory `m`, port `p` at `P` and inputs `l`. -/
def withPort (s : State) (p : Port) (m : Memory) (P : PortState) (l : List Input) : State :=
  setPort { s with phys := m, inputs := l } p P

theorem withPort_self (s : State) (p : Port) : withPort s p s.phys (portOf s p) s.inputs = s := by cases p <;> rfl

section
variable (s : State) (p : Port) (m m' : Memory) (P : PortState) (l l' : List Input) (f : PortState → PortState)

@[simp] theorem portOf_withPort : portOf (withPort s p m P l) p = P := by cases p <;> rfl
@[simp] theorem portOf_withPort_other : portOf (withPort s p m P l) (other p) = portOf s (other p) := by
  cases p <;> rfl
@[simp] theorem withPort_phys : (withPort s p m P l).phys = m := by cases p <;> rfl
@[simp] theorem withPort_inputs : (withPort s p m P l).inputs = l := by cases p <;> rfl
@[simp] theorem withPort_cap : (withPort s p m P l).cap = s.cap := by cases p <;> rfl
@[simp] theorem withPort_fault : (withPort s p m P l).fault = s.fault := by cases p <;> rfl
@[simp] theorem withPort_refusal : (withPort s p m P l).refusal = s.refusal := by cases p <;> rfl
@[simp] theorem withPort_withInputs : { withPort s p m P l with inputs := l' } = withPort s p m P l' := by
  cases p <;> rfl
@[simp] theorem withPort_withPhys : { withPort s p m P l with phys := m' } = withPort s p m' P l := by
  cases p <;> rfl
@[simp] theorem modPort_withPort : modPort (withPort s p m P l) p f = withPort s p m (f P) l := by cases p <;> rfl

theorem view_withPort {i : Nat} (h1 : i ≠ 63) (h2 : i ≠ 127) :
    view (withPort s p m P l) p i = readCell m (physIndex p i) := by
  rw [view_cell _ _ h1 h2, withPort_phys]

theorem seqRead_withPort (c : Ctx) {i : Nat} (k : Word → State) (h : i < 128) :
    seqRead ⟨p, c⟩ i (withPort s p m P l) k = k (view (withPort s p m P l) p i) := by
  simp only [seqRead, memRead_of_lt _ _ h]

theorem seqWrite_withPort_cell (c : Ctx) {i : Nat} (v : Word) (k : State → State) (h : i < 128) (h1 : i ≠ 63)
    (h2 : i ≠ 127) :
    seqWrite ⟨p, c⟩ i v (withPort s p m P l) k = k (withPort s p (writeCell m (physIndex p i) v) P l) := by
  simp only [seqWrite, memWrite_cell _ _ _ h h1 h2]
  rw [withPort_phys, withPort_withPhys]

theorem seqWrite_withPort_rxCsr (c : Ctx) (v : Word) (k : State → State) :
    seqWrite ⟨p, c⟩ 127 v (withPort s p m P l) k = k (withPort s p m { P with rxcsr := v, pend := false } l) := by
  simp only [seqWrite, memWrite_rxCsr, modPort_withPort]

theorem seqWrite_withPort_txSlot (c : Ctx) {i : Nat} (v : Word) (k : State → State) (h : i ≤ 61) :
    seqWrite ⟨p, c⟩ (Config.txBase + i) v (withPort s p m P l) k =
      k (withPort s p (writeCell m (sendSlotCell p i) v) P l) := by
  rw [show Config.txBase + i = i by simp [Config.txBase],
    seqWrite_withPort_cell _ _ _ _ _ _ _ _ (by omega) (by omega) (by omega), physIndex_txSlot p h]

end

/-! One step of a run. -/

/-- A run whose oldest input is performed. -/
theorem run_cons {s t : State} {e : Input} {rest : List Input} {k : Nat} (h : s.inputs = e :: rest)
    (h2 : perform e { s with inputs := rest } = .next t) :
    Host.Core.run core (k + 1) s = Host.Core.run core k t := by
  have : core.step s = .next t := by
    show step s = _
    unfold step
    rw [h]
    exact h2
  simp only [Host.Core.run, this]

/-- A run is its first part, then the rest. -/
theorem run_add {a : Nat} (b : Nat) {s t : State} (h : Host.Core.run core a s = .next t) :
    Host.Core.run core (a + b) s = Host.Core.run core b t := by
  induction a generalizing s with
  | zero =>
    simp only [Host.Core.run] at h
    cases h
    simp
  | succ a ih =>
    rw [show a + 1 + b = (a + b) + 1 by omega]
    simp only [Host.Core.run] at h ⊢
    cases hs : core.step s <;> rw [hs] at h
    · exact ih h
    · cases h
    · cases h

/-- A step of an active handler. -/
theorem run_handler {s : State} {p : Port} {m m' : Memory} {P P' : PortState} {k : Nat} {l : List Input} {d : Drain}
    (hd : P.drain = some d) (he : P.handlerEnded = false)
    (h : drainStep p d (withPort s p m P l) = withPort s p m' P' l) :
    Host.Core.run core (k + 1) (withPort s p m P (.handler p :: l)) =
      Host.Core.run core k (withPort s p m' P' l) := by
  refine run_cons (e := .handler p) (rest := l) (by simp) ?_
  simp only [perform, withPort_withInputs, handlerStep, portOf_withPort, he, hd]
  simp [h]

/-- A step of an active SEND. -/
theorem run_caller {s : State} {p : Port} {m m' : Memory} {P P' : PortState} {k : Nat} {l : List Input} {x : Send}
    (hx : P.caller = .send x) (he : P.callerEnded = false) (hi : P.inh = false)
    (h : sendStep p x (withPort s p m P l) = withPort s p m' P' l) :
    Host.Core.run core (k + 1) (withPort s p m P (.caller p :: l)) =
      Host.Core.run core k (withPort s p m' P' l) := by
  refine run_cons (e := .caller p) (rest := l) (by simp) ?_
  simp only [perform, withPort_withInputs, callerStep, portOf_withPort, he, hx, hi]
  simp [h]

/-! The loops. -/

/-- Fewer than C steps around a ring never come back to where they started. -/
theorem add_mod_ne {a q c : Nat} (hq0 : 0 < q) (hq : q < c) : (a + q) % c ≠ a % c := by
  intro h
  have := Nat.ModEq.add_left_cancel' (n := c) (a := q) (b := 0) a (by simpa [Nat.ModEq] using h)
  rw [Nat.ModEq, Nat.mod_eq_of_lt hq] at this
  simp at this
  omega

/-- D4 from a head `n` slots behind the tail: `n` words are appended, in ring order (43 R124). -/
theorem run_drain_loop (s : State) (p : Port) (m : Memory) (l : List Input) (hc : s.cap ≤ 62) :
    ∀ (n : Nat) (P : PortState) (d : Drain) (k : Nat), P.drain = some d → P.handlerEnded = false → d.pos = .d4 →
    d.head < s.cap → d.tail < s.cap → (d.head + n) % s.cap = d.tail → d.n + n ≤ s.cap - 1 →
    ∃ d', Host.Core.run core (2 * n + 1 + k) (withPort s p m P (List.replicate (2 * n + 1) (.handler p) ++ l)) =
        Host.Core.run core k (withPort s p m { P with drain := some d' } l) ∧
      d'.pos = .d5Read ∧ d'.n = d.n + n ∧ d'.head = d.tail ∧
      d'.buf = d.buf ++
        (List.range n).map fun j => readCell m (physIndex p (64 + (d.head + j) % s.cap)) := by
  intro n
  induction n with
  | zero =>
    intro P d k hd he hp hh ht hm hb
    have hht : d.head = d.tail := by simpa [Nat.mod_eq_of_lt hh] using hm
    refine ⟨{ d with pos := .d5Read }, ?_, rfl, rfl, hht, by simp⟩
    simp only [Nat.mul_zero, Nat.zero_add, Nat.add_comm 1 k]
    refine run_handler hd he ?_
    simp only [drainStep, hp, drainD4, hht]
    simp [setDrain]
  | succ n ih =>
    intro P d k hd he hp hh ht hm hb
    have hc0 : 0 < s.cap := by omega
    have hne : d.head ≠ d.tail := by
      intro h
      have := add_mod_ne (a := d.head) (q := n + 1) (c := s.cap) (by omega) (by omega)
      rw [hm, ← h, Nat.mod_eq_of_lt hh] at this
      exact this rfl
    let d1 : Drain := { d with buf := d.buf ++ [readCell m (physIndex p (64 + d.head))], n := d.n + 1, pos := .d4Adv }
    let d2 : Drain := { d1 with head := (d.head + 1) % s.cap, pos := .d4 }
    have e : 2 * (n + 1) + 1 + k = (2 * n + 1 + k) + 1 + 1 := by omega
    have e2 : List.replicate (2 * (n + 1) + 1) (Input.handler p) =
        .handler p :: .handler p :: List.replicate (2 * n + 1) (Input.handler p) := by
      rw [show 2 * (n + 1) + 1 = (2 * n + 1) + 1 + 1 by omega, List.replicate_succ, List.replicate_succ]
    rw [e, e2]
    simp only [List.cons_append]
    obtain ⟨d', h3, h4, h5, h6, h7⟩ := ih { P with drain := some d2 } d2 k rfl he rfl (Nat.mod_lt _ hc0) ht
      (by show ((d.head + 1) % s.cap + n) % s.cap = d.tail; rw [Nat.mod_add_mod, ← hm]; congr 1; omega)
      (by show d.n + 1 + n ≤ _; omega)
    refine ⟨d', ?_, h4, by rw [h5]; show d.n + 1 + n = _; omega, h6, ?_⟩
    · rw [run_handler (P' := { P with drain := some d1 }) (m' := m) hd he,
        run_handler (P' := { P with drain := some d2 }) (m' := m) (P := { P with drain := some d1 }) (d := d1) rfl he,
        h3]
      · simp only [drainStep, d1, drainD4Adv, withPort_cap, seqFunc, adv_of_lt hh]
        simp [setDrain, d2, d1]
      · simp only [drainStep, hp, drainD4, withPort_cap, if_neg hne, drainMax, Config.rxBase]
        rw [if_neg (by omega), seqRead_withPort _ _ _ _ _ _ _ (by omega),
          view_withPort _ _ _ _ _ (by omega) (by omega)]
        simp [setDrain, d1]
    · rw [h7]
      show (d.buf ++ [_]) ++ _ = _
      rw [List.range_succ_eq_map, List.map_cons, List.append_assoc]
      congr 1
      simp only [List.singleton_append, Nat.add_zero, Nat.mod_eq_of_lt hh, List.map_map]
      congr 1
      apply List.map_congr_left
      intro j _
      simp only [Function.comp, d2, Nat.mod_add_mod]
      congr 4
      omega

/-- Sd with `r` words of the pass left: they go into successive slots from the tail, and no other cell changes
(43 R133). -/
theorem run_send_loop (s : State) (p : Port) (l : List Input) (hc : s.cap ≤ 62) (hc2 : 2 ≤ s.cap) :
    ∀ (r : Nat) (m : Memory) (P : PortState) (x : Send) (k : Nat), P.caller = .send x → P.callerEnded = false →
    P.inh = false → x.pos = .sdWrite → m.wf = true → x.tail < s.cap → x.j + r = x.k →
    x.sent + x.k ≤ x.words.length → r < s.cap →
    ∃ m' x', Host.Core.run core (2 * r + 1 + k) (withPort s p m P (List.replicate (2 * r + 1) (.caller p) ++ l)) =
        Host.Core.run core k (withPort s p m' { P with caller := .send x' } l) ∧
      x'.pos = .seRead ∧ x'.tail = (x.tail + r) % s.cap ∧ x'.words = x.words ∧ x'.sent = x.sent ∧ x'.k = x.k ∧
      m'.wf = true ∧
      (∀ q, q < r → readCell m' (sendSlotCell p ((x.tail + q) % s.cap)) = x.words[x.sent + x.j + q]!) ∧
      (∀ cell, (∀ q, q < r → cell ≠ sendSlotCell p ((x.tail + q) % s.cap)) → readCell m' cell = readCell m cell) := by
  intro r
  induction r with
  | zero =>
    intro m P x k hx he hih hp hm ht hj hw hr
    refine ⟨m, { x with pos := .seRead }, ?_, rfl, by simp [Nat.mod_eq_of_lt ht], rfl, rfl, rfl, hm, by omega, by simp⟩
    simp only [Nat.mul_zero, Nat.zero_add, Nat.add_comm 1 k]
    refine run_caller hx he hih ?_
    simp only [sendStep, hp, sendSdWrite]
    rw [if_neg (by omega)]
    simp [setSend, setCaller]
  | succ r ih =>
    intro m P x k hx he hih hp hm ht hj hw hr
    have hlt : x.sent + x.j < x.words.length := by omega
    let v := x.words[x.sent + x.j]
    let m1 := writeCell m (sendSlotCell p x.tail) v
    let x1 : Send := { x with pos := .sdAdv }
    let x2 : Send := { x1 with tail := (x.tail + 1) % s.cap, j := x.j + 1, pos := .sdWrite }
    have hc0 : 0 < s.cap := by omega
    obtain ⟨m', x', g1, g2, g3, g4, g5, g6, g7, g8, g9⟩ := ih m1 { P with caller := .send x2 } x2 k rfl he hih rfl
      (writeCell_wf _ (isShared_sendSlotCell p (by omega)) hm) (Nat.mod_lt _ hc0)
      (by show x.j + 1 + r = x.k; omega) hw (by omega)
    refine ⟨m', x', ?_, g2, ?_, g4, g5, g6, g7, ?_, ?_⟩
    · have e : 2 * (r + 1) + 1 + k = (2 * r + 1 + k) + 1 + 1 := by omega
      have e2 : List.replicate (2 * (r + 1) + 1) (Input.caller p) =
          .caller p :: .caller p :: List.replicate (2 * r + 1) (Input.caller p) := by
        rw [show 2 * (r + 1) + 1 = (2 * r + 1) + 1 + 1 by omega, List.replicate_succ, List.replicate_succ]
      rw [e, e2]
      simp only [List.cons_append]
      rw [run_caller (P' := { P with caller := .send x1 }) (m' := m1) hx he hih,
        run_caller (P' := { P with caller := .send x2 }) (m' := m1) (P := { P with caller := .send x1 }) (x := x1) rfl
          he hih, g1]
      · simp only [sendStep, x1, sendSdAdv, withPort_cap, seqFunc, adv_of_lt ht]
        simp [setSend, setCaller, x2, x1]
      · simp only [sendStep, hp, sendSdWrite]
        rw [if_pos (by omega), List.getElem?_eq_getElem hlt]
        simp only
        rw [seqWrite_withPort_txSlot _ _ _ _ _ _ _ _ (by omega)]
        simp [setSend, setCaller, x1, m1, v]
    · rw [g3]
      show ((x.tail + 1) % s.cap + r) % s.cap = _
      rw [Nat.mod_add_mod]
      congr 1
      omega
    · intro q hq
      rcases Nat.eq_zero_or_pos q with rfl | hq0
      · rw [Nat.add_zero, Nat.add_zero, Nat.mod_eq_of_lt ht, g9]
        · rw [readCell_writeCell_same _ _ _ (indicesRise_of_wf hm)]
          show x.words[x.sent + x.j] = _
          rw [getElem!_pos x.words _ hlt]
        · intro q' hq' h
          have := sendSlotCell_inj p h
          simp only [x2, Nat.mod_add_mod] at this
          have h3 := add_mod_ne (a := x.tail) (c := s.cap) (q := q' + 1) (by omega) (by omega)
          rw [Nat.mod_eq_of_lt ht] at h3
          apply h3
          rw [this]
          congr 1
          omega
      · have := g8 (q - 1) (by omega)
        simp only [x2, Nat.mod_add_mod, x1] at this
        rw [show x.tail + 1 + (q - 1) = x.tail + q by omega,
          show x.sent + (x.j + 1) + (q - 1) = x.sent + x.j + q by omega] at this
        exact this
    · intro cell hcell
      rw [g9, readCell_writeCell_ne]
      · have := hcell 0 (by omega)
        rwa [Nat.add_zero, Nat.mod_eq_of_lt ht] at this
      · intro q hq
        have := hcell (q + 1) (by omega)
        simp only [x2, Nat.mod_add_mod]
        rwa [show x.tail + 1 + q = x.tail + (q + 1) by omega]

end Sys2Proof.Machine
end

