-- ==== Sys2Proof/Laws/Step.lean ====
section
/-! SUPPORT. Said once: everything a step can do. A step acts for one port (or is the reset event), it performs at most one
write access, and it has one of seven effects, fixed by that write; the whole-machine statements follow from this without
unfolding the step again. -/

namespace Sys2Proof.Machine

open Sys2Proof.Safety

/-- The effects of a step that acts for port `p` and performs the write access `w` (window index, value), if any. -/
inductive Effect (p : Port) (s : State) : Option (Nat × Word) → State → Prop where
  /-- Nothing but the input leaves. -/
  | stays : Effect p s none s
  /-- Only state of `p` outside its block registers changes. -/
  | localTo (P : PortState) (h1 : P.txcsr = (portOf s p).txcsr) (h2 : P.rxcsr = (portOf s p).rxcsr)
      (h3 : P.pend = (portOf s p).pend) : Effect p s none (setPort s p P)
  /-- An agent of `p` raises a fault; a write that faults has an index of 128 or more. -/
  | faults (c : Ctx) (f : Fault) {w : Option (Nat × Word)} (hw : ∀ i v, w = some (i, v) → 128 ≤ i) :
      Effect p s w (raiseFault ⟨p, c⟩ f s)
  /-- A use is refused; a write that is refused is one of another value than DOORBELL to TX_CSR. -/
  | refuses (r : Refusal) {w : Option (Nat × Word)} (hw : ∀ i v, w = some (i, v) → i = 63 ∧ v ≠ Config.doorbell) :
      Effect p s w (refuse r s)
  /-- One shared cell is stored. -/
  | stores (i : Nat) (v : Word) (P : PortState) (hi : i < 128) (n1 : i ≠ 63) (n2 : i ≠ 127)
      (h1 : P.txcsr = (portOf s p).txcsr) (h2 : P.rxcsr = (portOf s p).rxcsr) (h3 : P.pend = (portOf s p).pend) :
      Effect p s (some (i, v)) (setPort { s with phys := writeCell s.phys (physIndex p i) v } p P)
  /-- The doorbell is rung. -/
  | rings (P : PortState) (h1 : P.txcsr = Config.doorbell) (h2 : P.rxcsr = (portOf s p).rxcsr)
      (h3 : P.pend = (portOf s p).pend) :
      Effect p s (some (63, Config.doorbell)) (doorbellPulse (other p) (setPort s p P))
  /-- The receive CSR is written. -/
  | arms (v : Word) (P : PortState) (h1 : P.txcsr = (portOf s p).txcsr) (h2 : P.rxcsr = v) (h3 : P.pend = false) :
      Effect p s (some (127, v)) (setPort s p P)

/-- A fault of a step that performs no write. -/
theorem Effect.faultsNoWrite {p : Port} {s : State} (c : Ctx) (f : Fault) : Effect p s none (raiseFault ⟨p, c⟩ f s) :=
  .faults c f fun _ _ h => nomatch h

/-- A refusal of a step that performs no write. -/
theorem Effect.refusesNoWrite {p : Port} {s : State} (r : Refusal) : Effect p s none (refuse r s) :=
  .refuses r fun _ _ h => nomatch h

theorem setPort_setPort (s : State) (p : Port) (P Q : PortState) : setPort (setPort s p P) p Q = setPort s p Q := by
  cases p <;> rfl

theorem setPort_portOf (s : State) (p : Port) : setPort s p (portOf s p) = s := by cases p <;> rfl

/-- Two ports' updates commute. -/
theorem setPort_comm (s : State) (p : Port) (P Q : PortState) :
    setPort (setPort s p P) (other p) Q = setPort (setPort s (other p) Q) p P := by cases p <;> rfl

/-- After a performed write, the same effect with a further change of `p` outside its block registers. -/
theorem Effect.ofWrite {s s' : State} {p : Port} {i : Nat} {v : Word} (h : memWrite s p i v = .ok s')
    (g : PortState → PortState) (h1 : ∀ P, (g P).txcsr = P.txcsr) (h2 : ∀ P, (g P).rxcsr = P.rxcsr)
    (h3 : ∀ P, (g P).pend = P.pend) :
    Effect p s (some (i, v)) (modPort s' p g) := by
  rcases memWrite_ok h with ⟨hi, n1, n2, rfl⟩ | ⟨rfl, rfl, rfl⟩ | ⟨rfl, rfl⟩
  · have := Effect.stores (s := s) i v (g (portOf s p)) hi n1 n2 (h1 _) (h2 _) (h3 _)
    simpa [modPort] using this
  · have := Effect.rings (s := s) (g { portOf s p with txcsr := Config.doorbell }) (h1 _) (h2 _) (h3 _)
    cases p <;> exact this
  · have := Effect.arms (s := s) v (g { portOf s p with rxcsr := v, pend := false }) (h1 _) (h2 _) (h3 _)
    cases p <;> exact this

/-- A write that is not performed ends its agent's step in a fault or a refusal. -/
theorem Effect.ofStop {s : State} {p : Port} {i : Nat} {v : Word} {st : Stop} (h : memWrite s p i v = .error st)
    (c : Ctx) : Effect p s (some (i, v)) (stopWith ⟨p, c⟩ st s) := by
  rcases memWrite_error h with ⟨hi, rfl⟩ | ⟨rfl, hv, rfl⟩
  · exact .faults c _ fun _ _ e => by cases e; exact hi
  · exact .refuses _ fun _ _ e => by cases e; exact ⟨rfl, hv⟩

/-- A write answered to the direct agent. -/
theorem effect_answerWrite {s t : State} {p : Port} {i : Nat} {v : Word}
    (h : answerWrite p (memWrite s p i v) s = .next t) : Effect p s (some (i, v)) t := by
  cases hw : memWrite s p i v with
  | ok s' =>
    rw [hw] at h
    cases h
    simpa [modPort, setPort_portOf] using Effect.ofWrite hw id (fun _ => rfl) (fun _ => rfl) (fun _ => rfl)
  | error st =>
    rw [hw] at h
    cases h
    exact .ofStop hw .direct

/-- A read answered to the direct agent. -/
theorem effect_answerRead {s t : State} {p : Port} {res : Except Fault Word}
    (h : answerRead p res s = .next t) : Effect p s none t := by
  cases res with
  | ok w => cases h; exact .localTo _ rfl rfl rfl
  | error f => cases h; exact .faultsNoWrite .direct f

/-- A function answered to the direct agent. -/
theorem effect_answerValue {s t : State} {p : Port} {res : Except Fault Nat}
    (h : answerValue p res s = .next t) : Effect p s none t := by
  cases res with
  | ok v => cases h; exact .localTo _ rfl rfl rfl
  | error f => cases h; exact .faultsNoWrite .direct f

/-- The port an operation acts for. -/
def instrPort : Instr → Port
  | .rdTxSlot p _ => p
  | .wrTxSlot p _ _ => p
  | .rdTxIr p => p
  | .wrTxIr p _ => p
  | .rdTxCsr p => p
  | .wrTxCsr p _ => p
  | .rdRxSlot p _ => p
  | .wrRxSlot p _ _ => p
  | .rdRxIr p => p
  | .wrRxIr p _ => p
  | .rdRxCsr p => p
  | .wrRxCsr p _ => p
  | .headGet p _ => p
  | .tailGet p _ => p
  | .headPack p _ _ => p
  | .tailPack p _ _ => p
  | .csrEn p _ => p
  | .csrValid p _ => p
  | .csrMake p _ _ => p
  | .modCap p _ => p
  | .adv p _ => p
  | .used p _ _ => p
  | .free p _ _ => p

/-- The write access of an operation: window index and value. -/
def instrWrite : Instr → Option (Nat × Word)
  | .rdTxSlot _ _ => none
  | .wrTxSlot _ i v => some (i.toNat, v)
  | .rdTxIr _ => none
  | .wrTxIr _ v => some (62, v)
  | .rdTxCsr _ => none
  | .wrTxCsr _ v => some (63, v)
  | .rdRxSlot _ _ => none
  | .wrRxSlot _ i v => some (i.toNat, v)
  | .rdRxIr _ => none
  | .wrRxIr _ v => some (126, v)
  | .rdRxCsr _ => none
  | .wrRxCsr _ v => some (127, v)
  | .headGet _ _ => none
  | .tailGet _ _ => none
  | .headPack _ _ _ => none
  | .tailPack _ _ _ => none
  | .csrEn _ _ => none
  | .csrValid _ _ => none
  | .csrMake _ _ _ => none
  | .modCap _ _ => none
  | .adv _ _ => none
  | .used _ _ _ => none
  | .free _ _ _ => none

/-- Every operation has one of the seven effects, by its write access. -/
theorem effect_exec {i : Instr} {s t : State} (h : exec i s = .next t) : Effect (instrPort i) s (instrWrite i) t := by
  cases i <;>
    simp only [exec, execRdTxSlot, execWrTxSlot, execRdTxIr, execWrTxIr, execRdTxCsr, execWrTxCsr, execRdRxSlot,
      execWrRxSlot, execRdRxIr, execWrRxIr, execRdRxCsr, execWrRxCsr, execHeadGet, execTailGet, execHeadPack,
      execTailPack, execCsrEn, execCsrValid, execCsrMake, execModCap, execAdv, execUsed, execFree] at h <;>
    first
      | exact effect_answerRead h
      | exact effect_answerWrite h
      | exact effect_answerValue h

/-- A decoded operation acts for the port of its request. -/
theorem instrPort_decode {r : Request} {i : Instr} (h : decode r = .ok i) : instrPort i = r.port := by
  unfold decode at h
  split at h
  · split at h
    · cases h
    · split at h
      · next j hj =>
        cases h
        unfold funcOf at hj
        split at hj <;> cases hj <;> rfl
      · cases h
  · split at h
    · cases h
      unfold wrOf
      repeat' split
      all_goals rfl
    · cases h
      unfold rdOf
      repeat' split
      all_goals rfl

/-- A decoded operation performs the write its operation word encodes (30 R69, R73). -/
theorem instrWrite_decode {r : Request} {i : Instr} (h : decode r = .ok i) : instrWrite i = requestWrite r := by
  obtain ⟨hf, hw, hx⟩ := opw_fields r.opw
  have := r.opw.isLt
  unfold decode at h
  unfold requestWrite
  split at h
  · next hfunc =>
    rw [hf, decide_eq_true_eq] at hfunc
    rw [if_neg (by omega)]
    split at h
    · cases h
    · split at h
      · next j hj =>
        cases h
        unfold funcOf at hj
        split at hj <;> cases hj <;> rfl
      · cases h
  · next hbus =>
    rw [hf, decide_eq_true_eq] at hbus
    split at h
    · next hwe =>
      rw [hw, decide_eq_true_eq] at hwe
      cases h
      rw [if_pos (by omega)]
      unfold wrOf
      repeat' split
      all_goals simp only [instrWrite, Option.some.injEq, Prod.mk.injEq, and_true]; omega
    · next hwe =>
      rw [hw, decide_eq_true_eq] at hwe
      cases h
      rw [if_neg (by omega)]
      unfold rdOf
      repeat' split
      all_goals rfl

theorem effect_performRequest {r : Request} {s t : State} (h : performRequest r s = .next t) :
    Effect r.port s (requestWrite r) t := by
  unfold performRequest at h
  split at h
  · next i hi =>
    rw [← instrPort_decode hi, ← instrWrite_decode hi]
    exact effect_exec h
  · next opw hi =>
    cases h
    rw [requestWrite, if_neg (by have := isFunc_of_decode_error hi; omega)]
    exact .faultsNoWrite ..

/-! The sequences. -/

/-- A step of a sequence that reads. -/
theorem effect_seqRead {s : State} {p : Port} {c : Ctx} {i : Nat} {k : Word → State}
    (hk : ∀ w, Effect p s none (k w)) : Effect p s none (seqRead ⟨p, c⟩ i s k) := by
  unfold seqRead
  split
  · exact hk _
  · exact .faultsNoWrite c _

/-- A step of a sequence that evaluates a function and performs no access. -/
theorem effect_seqFunc {α : Type} {s : State} {p : Port} {c : Ctx} {res : Except Fault α} {k : α → State}
    (hk : ∀ v, Effect p s none (k v)) : Effect p s none (seqFunc ⟨p, c⟩ res s k) := by
  unfold seqFunc
  split
  · exact hk _
  · exact .faultsNoWrite c _

/-- A step of a sequence that evaluates a function and then writes its value. -/
theorem effect_seqFuncWrite {s : State} {p : Port} {c : Ctx} {i : Nat} {res : Except Fault Word} {k : Word → State}
    (hk : ∀ v, Effect p s (some (i, v)) (k v)) : Effect p s (valueWrite i res) (seqFunc ⟨p, c⟩ res s k) := by
  cases res with
  | ok v => exact hk v
  | error f => exact .faultsNoWrite c f

/-- A step of a sequence that writes and then moves. -/
theorem effect_seqWrite {s : State} {p : Port} {c : Ctx} {i : Nat} {v : Word} (g : PortState → PortState)
    (h1 : ∀ P, (g P).txcsr = P.txcsr) (h2 : ∀ P, (g P).rxcsr = P.rxcsr) (h3 : ∀ P, (g P).pend = P.pend) :
    Effect p s (some (i, v)) (seqWrite ⟨p, c⟩ i v s fun s' => modPort s' p g) := by
  unfold seqWrite
  split
  · next s' hw => exact Effect.ofWrite hw g h1 h2 h3
  · next st hw => exact .ofStop hw c

theorem effect_seqWrite_drain {s : State} {p : Port} {c : Ctx} {i : Nat} {v : Word} (d : Drain) :
    Effect p s (some (i, v)) (seqWrite ⟨p, c⟩ i v s fun s' => setDrain p d s') :=
  effect_seqWrite (fun P => { P with drain := some d }) (fun _ => rfl) (fun _ => rfl) (fun _ => rfl)

theorem effect_seqWrite_send {s : State} {p : Port} {c : Ctx} {i : Nat} {v : Word} (x : Send) :
    Effect p s (some (i, v)) (seqWrite ⟨p, c⟩ i v s fun s' => setSend p x s') :=
  effect_seqWrite (fun P => { P with caller := .send x }) (fun _ => rfl) (fun _ => rfl) (fun _ => rfl)

theorem effect_setDrain (p : Port) (d : Drain) (s : State) : Effect p s none (setDrain p d s) := .localTo _ rfl rfl rfl
theorem effect_setCaller (p : Port) (c : Caller) (s : State) : Effect p s none (setCaller p c s) :=
  .localTo _ rfl rfl rfl

theorem effect_setDrain_setLock (p : Port) (d : Drain) (l : Lock) (s : State) :
    Effect p s none (setDrain p d (setLock p l s)) := by
  have := Effect.localTo (s := s) (p := p) { portOf s p with lock := l, drain := some d } rfl rfl rfl
  cases p <;> exact this

theorem effect_drainStep (p : Port) (d : Drain) (s : State) : Effect p s (drainWrite s.cap d) (drainStep p d s) := by
  cases hp : d.pos <;> simp only [drainStep, drainWrite, hp]
  · unfold drainD1
    split
    · exact .stays
    · exact effect_setDrain_setLock ..
  · exact effect_seqRead fun _ => effect_setDrain ..
  · exact effect_seqFuncWrite fun _ => effect_seqWrite_drain _
  · exact effect_seqRead fun _ => effect_setDrain ..
  · exact effect_seqRead fun _ => effect_setDrain ..
  · unfold drainD4
    split
    · exact effect_setDrain ..
    · split
      · exact .faultsNoWrite ..
      · exact effect_seqRead fun _ => effect_setDrain ..
  · exact effect_seqFunc fun _ => effect_setDrain ..
  · exact effect_seqRead fun _ => effect_setDrain ..
  · exact effect_seqFuncWrite fun _ => effect_seqWrite_drain _
  · exact effect_setDrain_setLock ..
  · exact .stays

theorem effect_sendStep (p : Port) (x : Send) (s : State) : Effect p s (sendWrite s.cap x) (sendStep p x s) := by
  cases hp : x.pos <;> simp only [sendStep, sendWrite, hp]
  · unfold sendS0
    split
    · exact effect_setCaller ..
    · exact effect_setCaller ..
  · exact effect_seqRead fun _ => effect_setCaller ..
  · exact effect_seqRead fun _ => effect_setCaller ..
  · exact effect_seqFunc fun _ => effect_setCaller ..
  · unfold sendSc
    split
    · exact effect_setCaller ..
    · exact effect_setCaller ..
  · exact effect_setCaller ..
  · unfold sendSdWrite
    split
    · cases x.words[x.sent + x.j]? with
      | some w => exact effect_seqWrite_send _
      | none => exact .stays
    · exact effect_setCaller ..
  · exact effect_seqFunc fun _ => effect_setCaller ..
  · exact effect_seqRead fun _ => effect_setCaller ..
  · exact effect_seqFuncWrite fun _ => effect_seqWrite_send _
  · exact effect_seqWrite_send _
  · unfold sendSg
    split
    · exact effect_setCaller ..
    · exact effect_setCaller ..

theorem effect_handlerStep (p : Port) (s : State) : Effect p s (handlerWrite s.cap (portOf s p)) (handlerStep p s) := by
  unfold handlerStep handlerWrite
  split
  · exact .stays
  · cases (portOf s p).drain with
    | some d => exact effect_drainStep ..
    | none => exact .stays

theorem effect_callerStep (p : Port) (s : State) : Effect p s (callerWrite s.cap (portOf s p)) (callerStep p s) := by
  unfold callerStep callerWrite
  split
  · exact .stays
  · cases (portOf s p).caller with
    | idle => exact .stays
    | init =>
      exact effect_seqFuncWrite fun _ => effect_seqWrite _ (fun _ => rfl) (fun _ => rfl) (fun _ => rfl)
    | send x => exact effect_sendStep ..

/-! The platform's inputs. -/

theorem effect_startInit (p : Port) (s : State) : Effect p s none (startInit p s) := by
  unfold startInit
  dsimp only
  split
  · exact .stays
  · split
    · exact effect_setCaller ..
    · exact .stays
    · exact .stays

theorem effect_startSend (p : Port) (words : List Word) (s : State) : Effect p s none (startSend p words s) := by
  unfold startSend
  dsimp only
  split
  · exact .stays
  · split
    · exact .refusesNoWrite _
    · exact .stays
    · split
      · exact effect_setCaller ..
      · exact .stays

theorem effect_deliver (p : Port) (s : State) : Effect p s none (deliver p s) := by
  unfold deliver
  split
  · exact .localTo _ rfl rfl rfl
  · exact .stays

theorem effect_acknowledge (p : Port) (status : Word) (s : State) : Effect p s none (acknowledge p status s) := by
  unfold acknowledge
  split
  · exact .stays
  · split
    · split
      · unfold drainD7
        split
        · exact .faultsNoWrite ..
        · exact .localTo _ rfl rfl rfl
      · exact .stays
    · exact .stays

theorem effect_byDirect {p : Port} {s t : State} {o : Host.Outcome State Fault Refusal}
    (h : byDirect p s o = .next t) {w : Option (Nat × Word)} (ho : o = .next t → Effect p s w t) :
    Effect p s (directWrite (portOf s p) w) t := by
  unfold byDirect at h
  unfold directWrite
  split at h
  · next he =>
    cases h
    rw [if_pos he]
    exact .stays
  · next he =>
    rw [if_neg he]
    exact ho h

/-- The direct agent's step where it presents no write. -/
theorem effect_read {p : Port} {s t : State} {o : Host.Outcome State Fault Refusal} (h : byDirect p s o = .next t)
    (ho : o = .next t → Effect p s none t) : Effect p s none t := by
  have := effect_byDirect h ho
  rwa [directWrite, ite_self] at this

/-- Every input but the reset event has one of the seven effects, for its port and by its write access. -/
theorem effect_perform {e : Input} {s t : State} (h : perform e s = .next t) :
    (e = .reset ∧ t = resetEvent s) ∨ ∃ p, actsFor e = some p ∧ Effect p s (writeAccess s e) t := by
  cases e with
  | issue r => exact .inr ⟨_, rfl, effect_byDirect h effect_performRequest⟩
  | callRead p i => exact .inr ⟨_, rfl, effect_read h effect_answerRead⟩
  | callWrite p i v => exact .inr ⟨_, rfl, effect_byDirect h effect_answerWrite⟩
  | hostRead p addr size =>
    refine .inr ⟨_, rfl, effect_read h fun ho => ?_⟩
    unfold hostRead at ho
    split at ho
    · exact effect_answerRead ho
    · cases ho
      exact .refusesNoWrite _
  | hostWrite p addr size v =>
    refine .inr ⟨_, rfl, effect_byDirect h fun ho => ?_⟩
    unfold hostWrite at ho
    split at ho
    · next i hi =>
      rw [hi]
      exact effect_answerWrite ho
    · next hi =>
      cases ho
      rw [hi]
      exact .refusesNoWrite _
  | init p => cases h; exact .inr ⟨_, rfl, effect_startInit ..⟩
  | send p words => cases h; exact .inr ⟨_, rfl, effect_startSend ..⟩
  | interrupt p => cases h; exact .inr ⟨_, rfl, effect_deliver ..⟩
  | caller p => cases h; exact .inr ⟨_, rfl, effect_callerStep ..⟩
  | handler p => cases h; exact .inr ⟨_, rfl, effect_handlerStep ..⟩
  | ack p status => cases h; exact .inr ⟨_, rfl, effect_acknowledge ..⟩
  | reset => cases h; exact .inl ⟨rfl, rfl⟩

/-- The list of what comes after an input does not bear on its write. -/
theorem writeAccess_withInputs (s : State) (l : List Input) (e : Input) :
    writeAccess { s with inputs := l } e = writeAccess s e := by
  cases e <;> simp [writeAccess]

/-- Everything a step can do. -/
theorem step_cases {s t : State} (h : step s = .next t) :
    (s.inputs = [] ∧ t = s) ∨
    ∃ e rest, s.inputs = e :: rest ∧
      ((e = .reset ∧ t = resetEvent { s with inputs := rest }) ∨
        ∃ p w, actsFor e = some p ∧ writeAccess s e = w ∧ Effect p { s with inputs := rest } w t) := by
  unfold step at h
  split at h
  · next hi =>
    cases h
    exact .inl ⟨hi, rfl⟩
  · next e rest hi =>
    refine .inr ⟨e, rest, hi, (effect_perform h).imp_right fun ⟨p, hp, he⟩ => ⟨p, _, hp, rfl, ?_⟩⟩
    rwa [writeAccess_withInputs] at he

/-! What is owed can be taken: the delivery and the lock grant that weak fairness speaks of (60 R158; 43 R117). -/

/-- An owed delivery may be made. -/
theorem mayDeliver_of_deliveryOwed {s : State} {p : Port} (h : deliveryOwed s p = true) : mayDeliver s p = true := by
  simp only [deliveryOwed, irq, Bool.and_eq_true] at h
  simp [mayDeliver, mayDeliverWith, h]

/-- A delivery that is owed and made starts the handler. -/
theorem deliver_of_deliveryOwed {s : State} {p : Port} (h : deliveryOwed s p = true) :
    deliver p s = takeInterrupt p s := by
  rw [deliver, if_pos (mayDeliver_of_deliveryOwed h)]

/-- A lock grant that is owed is made by the handler's next step. -/
theorem handlerStep_of_lockOwed {s : State} {p : Port} (h : lockOwed s p = true) :
    (portOf (handlerStep p s) p).lock = .held := by
  unfold lockOwed at h
  split at h
  · cases h
  · next d hd =>
    simp only [Bool.and_eq_true, decide_eq_true_eq, Bool.not_eq_true'] at h
    obtain ⟨⟨hp, hl⟩, he⟩ := h
    simp [handlerStep, he, hd, drainStep, hp, drainD1, hl, setDrain, setLock]

end Sys2Proof.Machine
end

