-- ==== Sys2Proof/Machine/Pseudo.lean ====
section
/-! DEFINITION. The pseudo-operations (30 R81): each is exactly the accesses listed, in order, nothing else. The
first access of REARM and of the two PUBLISH is a read; `c` is the value it returns, and nothing makes the accesses
atomic (20 R63). -/

namespace Sys2Proof.Machine

/-- 30 R81. -/
inductive Pseudo where
  | doorbell
  | arm
  | rearm
  | publishHead (h : Nat)
  | publishTail (t : Nat)
  deriving DecidableEq, Repr

/-- The read a pseudo-operation begins with, if it has one. -/
def pseudoRead (p : Port) : Pseudo → Option Instr
  | .doorbell => none
  | .arm => none
  | .rearm => some (.rdRxCsr p)
  | .publishHead _ => some (.rdTxIr p)
  | .publishTail _ => some (.rdTxIr p)

/-- The write a pseudo-operation ends with, for a machine of capacity `cap`, when its read returned `c`; its FUNC
may fault, and then there is no write. -/
def pseudoWrite (cap : Nat) (p : Port) (c : Word) : Pseudo → Except Fault Instr
  | .doorbell => .ok (.wrTxCsr p Config.doorbell)
  | .arm =>
    match csrMake 1 validMask.toNat with
    | .ok w => .ok (.wrRxCsr p w)
    | .error f => .error f
  | .rearm =>
    match csrMake 1 (csrValid c) with
    | .ok w => .ok (.wrRxCsr p w)
    | .error f => .error f
  | .publishHead h =>
    match headPack cap c h with
    | .ok w => .ok (.wrTxIr p w)
    | .error f => .error f
  | .publishTail t =>
    match tailPack cap c t with
    | .ok w => .ok (.wrTxIr p w)
    | .error f => .error f

end Sys2Proof.Machine
end

