-- ==== Sys2Proof/Tests/Slice0.lean ====
section
/-! SUPPORT. Tests by evaluation. Expected values are the spec's own vectors (95, named V-… and WE-…) or worked by
hand from the rule named. The last part holds, for every statement with hypotheses, a concrete case that meets
them. -/

namespace Sys2Proof.Tests

open Sys2Proof.Machine Sys2Proof.Safety

/-! Helpers. -/

/-- The state a step or a meaning goes on to. -/
def nextOf : Host.Outcome State Fault Refusal → Option State
  | .next s => some s
  | .fault _ => none
  | .refused _ => none

/-- RDATA at port `p` after an outcome. -/
def rdataOf (p : Port) (o : Host.Outcome State Fault Refusal) : Option Word := (nextOf o).map fun s => (portOf s p).rdata

/-- The function value at port A after an outcome. -/
def fvalOf (o : Host.Outcome State Fault Refusal) : Option Nat := (nextOf o).map fun s => s.a.fval

/-- The fault record after an outcome. -/
def faultOf (o : Host.Outcome State Fault Refusal) : Option (Option Fault) := (nextOf o).map fun s => s.fault

/-- Cell `k` after an outcome. -/
def cellOf (k : Nat) (o : Host.Outcome State Fault Refusal) : Option Word := (nextOf o).map fun s => readCell s.phys k

/-- Reset with some cells. -/
def withCells (m : Memory) : State := { State.reset with phys := m }

/-- Reset at C = 4. -/
def cap4 : State := { State.reset with cap := 4 }

/-- A port after INIT. -/
def armed : PortState := { PortState.reset with rxcsr := Config.doorbell, initDone := true }

/-- Reset with both ports after INIT. -/
def bothArmed : State := { State.reset with a := armed, b := armed }

/-- `s` with inputs `l`. -/
def given (s : State) (l : List Input) : State := { s with inputs := l }

/-! Well-formedness: one ill-formed operation for each check. -/

theorem test_wf_rdTxSlot_refuses_62 : (Instr.rdTxSlot .a 62).wf = false := by decide
theorem test_wf_wrTxSlot_refuses_64 : (Instr.wrTxSlot .b 64 1).wf = false := by decide
theorem test_wf_rdRxSlot_refuses_63_and_126 :
    (Instr.rdRxSlot .a 63).wf = false ∧ (Instr.rdRxSlot .a 126).wf = false := by decide
theorem test_wf_wrRxSlot_refuses_0_and_127 :
    (Instr.wrRxSlot .b 0 1).wf = false ∧ (Instr.wrRxSlot .b 127 1).wf = false := by decide
theorem test_wf_bounds_are_in : (Instr.rdTxSlot .a 0).wf = true ∧ (Instr.wrTxSlot .a 61 1).wf = true ∧
    (Instr.rdRxSlot .b 64).wf = true ∧ (Instr.wrRxSlot .b 125 1).wf = true := by decide

/-! Decoding: words written out bit by bit from 30 R73 and R74 (F, WE, IDX; or F, 0000, FSEL). -/

theorem test_decode_rdTxSlot : decode ⟨.a, 0b000111101, 0, 0, 0⟩ = .ok (.rdTxSlot .a 61) := by rfl
theorem test_decode_rdTxIr : decode ⟨.a, 0b000111110, 0, 0, 0⟩ = .ok (.rdTxIr .a) := by rfl
theorem test_decode_rdTxCsr : decode ⟨.a, 0b000111111, 0, 0, 0⟩ = .ok (.rdTxCsr .a) := by rfl
theorem test_decode_rdRxSlot : decode ⟨.a, 0b001000000, 0, 0, 0⟩ = .ok (.rdRxSlot .a 64) := by rfl
theorem test_decode_rdRxIr : decode ⟨.a, 0b001111110, 0, 0, 0⟩ = .ok (.rdRxIr .a) := by rfl
theorem test_decode_rdRxCsr : decode ⟨.a, 0b001111111, 0, 0, 0⟩ = .ok (.rdRxCsr .a) := by rfl
theorem test_decode_wrTxSlot : decode ⟨.b, 0b010000000, 0xAA, 0, 0⟩ = .ok (.wrTxSlot .b 0 0xAA) := by rfl
theorem test_decode_wrTxIr : decode ⟨.a, 0b010111110, 3, 0, 0⟩ = .ok (.wrTxIr .a 3) := by rfl
theorem test_decode_wrTxCsr : decode ⟨.a, 0b010111111, 3, 0, 0⟩ = .ok (.wrTxCsr .a 3) := by rfl
theorem test_decode_wrRxSlot : decode ⟨.b, 0b011111101, 3, 0, 0⟩ = .ok (.wrRxSlot .b 125 3) := by rfl
theorem test_decode_wrRxIr : decode ⟨.a, 0b011111110, 3, 0, 0⟩ = .ok (.wrRxIr .a 3) := by rfl
theorem test_decode_wrRxCsr : decode ⟨.a, 0b011111111, 3, 0, 0⟩ = .ok (.wrRxCsr .a 3) := by rfl
theorem test_decode_headGet : decode ⟨.a, 0b100000000, 7, 0, 0⟩ = .ok (.headGet .a 7) := by rfl
theorem test_decode_tailGet : decode ⟨.a, 0b100000001, 7, 0, 0⟩ = .ok (.tailGet .a 7) := by rfl
theorem test_decode_headPack : decode ⟨.a, 0b100000010, 7, 5, 0⟩ = .ok (.headPack .a 7 5) := by rfl
theorem test_decode_tailPack : decode ⟨.a, 0b100000011, 7, 5, 0⟩ = .ok (.tailPack .a 7 5) := by rfl
theorem test_decode_csrEn : decode ⟨.a, 0b100000100, 7, 0, 0⟩ = .ok (.csrEn .a 7) := by rfl
theorem test_decode_csrValid : decode ⟨.a, 0b100000101, 7, 0, 0⟩ = .ok (.csrValid .a 7) := by rfl
theorem test_decode_csrMake : decode ⟨.a, 0b100000110, 0, 1, 9⟩ = .ok (.csrMake .a 1 9) := by rfl
theorem test_decode_modCap : decode ⟨.a, 0b100000111, 0, 9, 0⟩ = .ok (.modCap .a 9) := by rfl
theorem test_decode_adv : decode ⟨.a, 0b100001000, 0, 9, 0⟩ = .ok (.adv .a 9) := by rfl
theorem test_decode_used : decode ⟨.b, 0b100001001, 0, 2, 5⟩ = .ok (.used .b 2 5) := by rfl
theorem test_decode_free : decode ⟨.b, 0b100001010, 0, 2, 5⟩ = .ok (.free .b 2 5) := by rfl
/-- V-DEC-20 and V-DEC-21. -/
theorem test_decode_fsel_above_10 : decode ⟨.a, 0x10B, 0, 0, 0⟩ = .error (.illegal 0x10B) ∧
    decode ⟨.a, 0x10F, 0, 0, 0⟩ = .error (.illegal 0x10F) := ⟨rfl, rfl⟩
/-- V-DEC-22 and V-DEC-23. -/
theorem test_decode_z_not_0 : decode ⟨.a, 0x110, 0, 0, 0⟩ = .error (.illegal 0x110) ∧
    decode ⟨.a, 0x1FF, 0, 0, 0⟩ = .error (.illegal 0x1FF) := ⟨rfl, rfl⟩

/-! The register window. -/

/-- V-AC-1. -/
theorem test_rdTxSlot_a : rdataOf .a (exec (.rdTxSlot .a 5) (withCells [(5, 0x1234)])) = some 0x1234 := by decide
/-- V-AC-2. -/
theorem test_rdTxSlot_b : rdataOf .b (exec (.rdTxSlot .b 5) (withCells [(69, 0x77)])) = some 0x77 := by decide
/-- V-AC-3. -/
theorem test_wrTxSlot_b : (nextOf (exec (.wrTxSlot .b 0 0xAA) State.reset)).map (·.phys) = some [(64, 0xAA)] := by
  decide
/-- V-AC-20. -/
theorem test_wrTxSlot_last : cellOf 61 (exec (.wrTxSlot .a 61 9) State.reset) = some 9 := by decide
/-- V-AC-4, A's half. -/
theorem test_rdTxIr : rdataOf .a (exec (.rdTxIr .a) (withCells [(62, 0x305)])) = some 0x305 := by decide
/-- V-AC-4, B's half. -/
theorem test_rdRxIr_b : rdataOf .b (exec (.rdRxIr .b) (withCells [(62, 0x305)])) = some 0x305 := by decide
/-- V-AC-5. -/
theorem test_rdRxIr_a : rdataOf .a (exec (.rdRxIr .a) (withCells [(126, 0x500)])) = some 0x500 := by decide
/-- V-AC-16. -/
theorem test_wrTxIr_rsvd : cellOf 62 (exec (.wrTxIr .a 0xFFFF000000000305) State.reset) = some 0xFFFF000000000305 := by
  decide
/-- V-AC-18. -/
theorem test_wrRxIr : cellOf 126 (exec (.wrRxIr .a 0x102) State.reset) = some 0x102 := by decide
/-- V-AC-6. -/
theorem test_wrTxCsr_rings :
    (nextOf (exec (.wrTxCsr .a 0xFFFFFFFFFFFFFFFF) State.reset)).map
      (fun s => (s.a.txcsr, s.b.pend, s.a.pend, irq s .b)) = some (0xFFFFFFFFFFFFFFFF, true, false, false) := by
  decide
/-- V-AC-8: 0 is not the doorbell either. -/
theorem test_wrTxCsr_refuses_0 :
    (nextOf (exec (.wrTxCsr .a 0) State.reset)).map (fun s => (s.refusal, s.a.txcsr, s.b.pend)) =
      some (some .doorbellValue, 0, false) := by decide
/-- V-AC-11: TXCSR is private. -/
theorem test_rdTxCsr_private :
    rdataOf .b (exec (.rdTxCsr .b) { State.reset with a := { armed with txcsr := Config.doorbell } }) = some 0 := by
  decide
/-- V-AC-10: a read rings nothing. -/
theorem test_rdTxCsr_rings_nothing :
    (nextOf (exec (.rdTxCsr .a) { bothArmed with a := { armed with txcsr := Config.doorbell } })).map
      (fun s => (s.a.rdata, s.b.pend)) = some (0xFFFFFFFFFFFFFFFF, false) := by decide
/-- V-AC-19. -/
theorem test_rdRxSlot_a : rdataOf .a (exec (.rdRxSlot .a 66) (withCells [(66, 0xBEEF)])) = some 0xBEEF := by decide
/-- P4 step 13: B's index 124 is PHYS[60]. -/
theorem test_rdRxSlot_b : rdataOf .b (exec (.rdRxSlot .b 124) (withCells [(60, 1)])) = some 1 := by decide
/-- V-AC-17, the write. -/
theorem test_wrRxSlot_a : cellOf 64 (exec (.wrRxSlot .a 64 7) State.reset) = some 7 := by decide
/-- 10 R23: B's index 125 is PHYS[61]. -/
theorem test_wrRxSlot_b : cellOf 61 (exec (.wrRxSlot .b 125 7) State.reset) = some 7 := by decide
/-- V-IRQ-9: reads do not clear. -/
theorem test_rdRxCsr : (nextOf (exec (.rdRxCsr .a) { bothArmed with a := { armed with pend := true } })).map
    (fun s => (s.a.rdata, s.a.pend)) = some (0xFFFFFFFFFFFFFFFF, true) := by decide
/-- V-AC-12. -/
theorem test_wrRxCsr : (nextOf (exec (.wrRxCsr .a 0x8000000000000005)
    { bothArmed with a := { armed with pend := true } })).map (fun s => (s.a.rxcsr, s.a.pend, irq s .a)) =
      some (0x8000000000000005, false, false) := by decide

/-! The codec. -/

/-- V-CO-1 and V-CO-2. -/
theorem test_headGet : fvalOf (exec (.headGet .a 0x305) State.reset) = some 5 ∧
    fvalOf (exec (.headGet .a 0xFFFFFFFFFFFFFF3D) State.reset) = some 61 := by decide
/-- V-CO-3 and V-CO-4. -/
theorem test_tailGet : fvalOf (exec (.tailGet .a 0x305) State.reset) = some 3 ∧
    fvalOf (exec (.tailGet .a 0xFFFFFFFFFFFF00FF) State.reset) = some 0 := by decide
/-- V-CO-7 and V-CO-8. -/
theorem test_headPack : fvalOf (exec (.headPack .a 0x305 61) State.reset) = some 0x33D ∧
    fvalOf (exec (.headPack .a 0xFFFFFFFFFFFFFFFF 0) State.reset) = some 0xFFFFFFFFFFFFFF00 := by decide
/-- V-CO-9. -/
theorem test_headPack_faults :
    faultOf (exec (.headPack .a 0x305 62) State.reset) = some (some (.fieldRange .head 62)) := by decide
/-- V-CO-12 and V-CO-14. -/
theorem test_tailPack : fvalOf (exec (.tailPack .a 0x305 61) State.reset) = some 0x3D05 ∧
    fvalOf (exec (.tailPack .a 0xFFFFFFFFFFFFFFFF 0) State.reset) = some 0xFFFFFFFFFFFF00FF := by decide
/-- V-CO-15. -/
theorem test_tailPack_faults :
    faultOf (exec (.tailPack .a 0 62) State.reset) = some (some (.fieldRange .tail 62)) := by decide
/-- V-CO-17. -/
theorem test_csrEn : fvalOf (exec (.csrEn .a 0xFFFFFFFFFFFFFFFF) State.reset) = some 1 ∧
    fvalOf (exec (.csrEn .a 0x7FFFFFFFFFFFFFFF) State.reset) = some 0 := by decide
/-- V-CO-19 (bit 62 kept) and V-CO-20. -/
theorem test_csrValid : fvalOf (exec (.csrValid .a 0x4000000000000000) State.reset) = some 0x4000000000000000 ∧
    fvalOf (exec (.csrValid .a 0x8000000000000000) State.reset) = some 0 := by decide
/-- V-CO-21 and V-CO-23. -/
theorem test_csrMake : fvalOf (exec (.csrMake .a 1 0x7FFFFFFFFFFFFFFF) State.reset) = some 0xFFFFFFFFFFFFFFFF ∧
    fvalOf (exec (.csrMake .a 0 5) State.reset) = some 5 := by decide
/-- V-CO-24 and V-CO-25, with the value that 60 R141 records. -/
theorem test_csrMake_faults : faultOf (exec (.csrMake .a 2 0) State.reset) = some (some (.fieldRange .csr 2)) ∧
    faultOf (exec (.csrMake .a 0 0x8000000000000000) State.reset) =
      some (some (.fieldRange .csr 0x8000000000000000)) := by decide

/-! Pointer arithmetic. -/

/-- V-AR-2 (the last) and V-AR-3. -/
theorem test_modCap : fvalOf (exec (.modCap .a 123) State.reset) = some 61 ∧
    faultOf (exec (.modCap .a 124) State.reset) = some (some (.arithRange .modCap [124])) := by decide
/-- V-AR-16. -/
theorem test_modCap_c4 : fvalOf (exec (.modCap .a 7) cap4) = some 3 ∧
    faultOf (exec (.modCap .a 8) cap4) = some (some (.arithRange .modCap [8])) := by decide
/-- V-AR-4 (the last) and V-AR-5. -/
theorem test_adv : fvalOf (exec (.adv .a 61) State.reset) = some 0 ∧
    faultOf (exec (.adv .a 62) State.reset) = some (some (.arithRange .adv [62])) := by decide
/-- V-AR-8 and V-AR-9. -/
theorem test_used : fvalOf (exec (.used .a 60 1) State.reset) = some 3 ∧
    fvalOf (exec (.used .a 1 0) State.reset) = some 61 := by decide
/-- V-AR-12. -/
theorem test_used_faults : faultOf (exec (.used .a 62 0) State.reset) = some (some (.arithRange .used [62, 0])) ∧
    faultOf (exec (.used .a 0 62) State.reset) = some (some (.arithRange .used [0, 62])) := by decide
/-- V-AR-15 and V-AR-13 (the second). -/
theorem test_free : fvalOf (exec (.free .a 13 10) State.reset) = some 2 ∧
    fvalOf (exec (.free .a 0 61) State.reset) = some 0 := by decide
/-- V-AR-17. -/
theorem test_free_c4 : fvalOf (exec (.free .a 1 3) cap4) = some 1 := by decide

/-! The machine. -/

/-- The placed word runs as the first operation after reset: RD.TXIR at A. -/
theorem test_withFetchWord : rdataOf .a (step ((withCells [(62, 0x305)]).withFetchWord 16 0x03E)) = some 0x305 := by
  decide
/-- A placed illegal word raises FAULT_ILLEGAL_OP (30 R76). -/
theorem test_withFetchWord_illegal :
    faultOf (step (State.reset.withFetchWord 16 0x110)) = some (some (.illegalOp 0x110)) := by decide
/-- V-AC-15. -/
theorem test_write_200 :
    faultOf (step (given State.reset [.callWrite .a 200 5])) = some (some (.idxRange .a 200 true)) := by decide
/-- V-DR-7: an own head of 100 reads index 164. -/
theorem test_drain_head_100 : faultOf (perform (.handler .a)
    { bothArmed with a := { armed with drain := some { Drain.start with pos := .d4, head := 100 } } }) =
      some (some (.idxRange .a 164 false)) := by decide
/-- V-DR-7: an own head of 62 reads index 126, the receive info register. -/
theorem test_drain_head_62 : (nextOf (perform (.handler .a) { bothArmed with
      phys := [(126, 0x500)], a := { armed with drain := some { Drain.start with pos := .d4, head := 62 } } })).map
        (fun s => s.a.drain.map (·.buf)) = some (some [0x500]) := by decide
/-- V-SN-7: an own tail of 62 faults at Sb. -/
theorem test_send_tail_62 : faultOf (perform (.caller .a)
    { bothArmed with a := { armed with caller := .send { Send.start [1] with pos := .sb, tail := 62 } } }) =
      some (some (.arithRange .used [0, 62])) := by decide
/-- V-IRQ-4, V-IRQ-5 and V-IRQ-6. -/
theorem test_irq_gate :
    irqWith false { armed with rxcsr := 0x8000000000000000, pend := true } = true ∧
    irqWith true { armed with rxcsr := 0x8000000000000000, pend := true } = false ∧
    irqWith true { armed with pend := true } = true := by decide
/-- 30 R81: ARM writes all ones, and REARM of 5 without EN writes EN with 5 (V-DR-4). -/
theorem test_pseudo : pseudoWrite 62 .a 0 .arm = .ok (.wrRxCsr .a 0xFFFFFFFFFFFFFFFF) ∧
    pseudoWrite 62 .a 5 .rearm = .ok (.wrRxCsr .a 0x8000000000000005) := ⟨rfl, rfl⟩
/-- 30 R81: the two PUBLISH keep the other byte (V-CO-6, V-CO-12). -/
theorem test_pseudo_publish : pseudoWrite 62 .a 0x305 (.publishHead 7) = .ok (.wrTxIr .a 0x307) ∧
    pseudoWrite 62 .a 0x305 (.publishTail 61) = .ok (.wrTxIr .a 0x3D05) := ⟨rfl, rfl⟩

/-! Cases that meet the hypotheses of each statement that has some, all of them together; with several clauses, one
case for each at a bound of its range. -/

/-- IRQ is high with RXCSR all ones and PEND set, whatever VALID_GATES_IRQ is (V-IRQ-6). -/
theorem irq_of_armed_pending (s : State) (p : Port) (h1 : (portOf s p).rxcsr = 0xFFFFFFFFFFFFFFFF)
    (h2 : (portOf s p).pend = true) : irq s p = true := by
  have h : ∀ v, irqWith v { armed with pend := true } = true := by decide
  have := h Config.validGatesIrq
  simp only [irqWith, armed, Config.doorbell] at this
  rw [irq, irqWith, h1, h2]
  exact this

theorem test_hyps_DecodeEncodeRoundTrip : (Instr.wrRxSlot .b 125 7).wf = true := by decide
theorem test_hyps_DecodedOperationReencodesToItsWord : decode ⟨.b, 0x10A, 0, 61, 0⟩ = .ok (.free .b 61 0) := by rfl
theorem test_hyps_BusWordsDecodeByRange :
    (0x03D : BitVec 9).toNat ≤ 0x03D ∧ (0x03E : BitVec 9).toNat = 0x03E ∧ (0x03F : BitVec 9).toNat = 0x03F ∧
    (0x040 ≤ (0x040 : BitVec 9).toNat ∧ (0x07D : BitVec 9).toNat ≤ 0x07D) ∧ (0x07E : BitVec 9).toNat = 0x07E ∧
    (0x07F : BitVec 9).toNat = 0x07F ∧ (0x080 ≤ (0x080 : BitVec 9).toNat ∧ (0x0BD : BitVec 9).toNat ≤ 0x0BD) ∧
    (0x0BE : BitVec 9).toNat = 0x0BE ∧ (0x0BF : BitVec 9).toNat = 0x0BF ∧
    (0x0C0 ≤ (0x0C0 : BitVec 9).toNat ∧ (0x0FD : BitVec 9).toNat ≤ 0x0FD) ∧ (0x0FE : BitVec 9).toNat = 0x0FE ∧
    (0x0FF : BitVec 9).toNat = 0x0FF := by decide
theorem test_hyps_StepRunsTheDecodedOperation :
    (given State.reset [.issue ⟨.b, 0x0BF, 1, 0, 0⟩]).inputs = .issue ⟨.b, 0x0BF, 1, 0, 0⟩ :: [] ∧
    (portOf (given State.reset [.issue ⟨.b, 0x0BF, 1, 0, 0⟩]) .b).directEnded = false ∧
    decode ⟨.b, 0x0BF, 1, 0, 0⟩ = .ok (.wrTxCsr .b 1) := ⟨rfl, rfl, rfl⟩
theorem test_hyps_PlacedTableWordRunsNext : decodeTableWord 16 0x10A = some (.free .a 0 0) := by rfl
theorem test_hyps_IllegalWordsRaiseTheirFault :
    (given State.reset [.issue ⟨.b, 0x10B, 0, 0, 0⟩]).inputs = .issue ⟨.b, 0x10B, 0, 0, 0⟩ :: [] ∧
    (portOf (given State.reset [.issue ⟨.b, 0x10B, 0, 0, 0⟩]) .b).directEnded = false ∧
    0x10B ≤ (0x10B : BitVec 9).toNat := by decide
theorem test_hyps_SlotReadsDeliverTheirCell :
    (61 : BitVec 7).toNat ≤ 61 ∧ (64 ≤ (64 : BitVec 7).toNat ∧ (64 : BitVec 7).toNat ≤ 125) ∧
    (64 ≤ (125 : BitVec 7).toNat ∧ (125 : BitVec 7).toNat ≤ 125) := by decide
theorem test_hyps_SlotWritesStoreOnlyTheirCell :
    (withCells [(61, 5), (126, 9)]).phys.wf = true ∧ (61 : BitVec 7).toNat ≤ 61 ∧
    (64 ≤ (125 : BitVec 7).toNat ∧ (125 : BitVec 7).toNat ≤ 125) := by decide
theorem test_hyps_InfoRegisterWritesStoreOnlyIt : (withCells [(62, 5), (126, 9)]).phys.wf = true := by decide
theorem test_hyps_TxCsrWriteRingsThePeerOrIsRefused : Config.doorbell = 0xFFFFFFFFFFFFFFFF ∧
    (0xFFFFFFFFFFFFFFFE : Word) ≠ 0xFFFFFFFFFFFFFFFF := by decide
theorem test_hyps_IndexAbove127Faults_read : 128 ≤ 128 ∧
    (portOf (given State.reset [.callRead .a 128]) .a).directEnded = false ∧
    (given State.reset [.callRead .a 128]).inputs = .callRead .a 128 :: [] := by decide
theorem test_hyps_IndexAbove127Faults_write : 128 ≤ 200 ∧
    (portOf (given State.reset [.callWrite .a 200 5]) .a).directEnded = false ∧
    (given State.reset [.callWrite .a 200 5]).inputs = .callWrite .a 200 5 :: [] := by decide
/-- A cell's address, a wrong size, an address inside a cell, and the first address after the last cell. -/
theorem test_hyps_HostBytesReachWholeCellsOnly :
    (portOf State.reset .a).directEnded = false ∧ (127 < 128) ∧ (4 ≠ 8) ∧
    (∀ i, i < 128 → Config.windowBase + 4 ≠ Config.windowBase + 8 * i) ∧
    (∀ i, i < 128 → Config.windowBase + 1024 ≠ Config.windowBase + 8 * i) :=
  ⟨rfl, by omega, by omega, fun i _ => by omega, fun i _ => by omega⟩
theorem test_hyps_IndexAbove127Faults_below : (portOf State.reset .a).directEnded = false ∧ 127 < 128 := by decide
theorem test_hyps_PeerReadsTheMirroredIndex : State.reset.phys.wf = true ∧ 126 < 128 ∧ 126 ≠ 63 ∧ 126 ≠ 127 ∧
    memWrite State.reset .b 126 7 = .ok (withCells [(62, 7)]) := ⟨rfl, by decide, by decide, by decide, rfl⟩
theorem test_hyps_ReadReturnsTheLatestWrite : State.reset.phys.wf = true ∧
    memWrite State.reset .a 61 7 = .ok (withCells [(61, 7)]) := ⟨rfl, rfl⟩
theorem test_hyps_PacksReplaceOneByteOrFault : State.reset.cap ≤ 62 ∧ 61 < State.reset.cap ∧ State.reset.cap ≤ 62 := by
  decide
/-- V-CO-16; and the pack of a register's own byte. -/
theorem test_hyps_PacksCommuteAndIsolateBytes : 62 ≤ 62 ∧ headPack 62 0 2 = .ok 0x2 ∧
    tailPack 62 0x2 5 = .ok 0x502 ∧ tailPack 62 0 5 = .ok 0x500 ∧ headPack 62 0x500 2 = .ok 0x502 ∧
    headPack 62 0x305 (headGet 0x305) = .ok 0x305 ∧ tailPack 62 0x305 (tailGet 0x305) = .ok 0x305 :=
  ⟨by decide, rfl, rfl, rfl, rfl, rfl, rfl⟩
theorem test_hyps_CsrMakeEncodesOrFaults :
    (1 ≤ 1 ∧ 2 ^ 63 - 1 < 2 ^ 63) ∧ 1 < 2 ∧ (1 ≤ 1 ∧ 2 ^ 63 ≤ 0x8000000000000000) := by
  decide
theorem test_hyps_ModCapWrapsOnceOrFaults : 123 < 2 * State.reset.cap ∧ 2 * State.reset.cap ≤ 124 := by decide
theorem test_hyps_AdvMovesOneSlotOrFaults : 61 < State.reset.cap ∧ State.reset.cap ≤ 62 := by decide
theorem test_hyps_UsedAndFreeCountTheRingOrFault :
    (61 < State.reset.cap ∧ 0 < State.reset.cap) ∧ (State.reset.cap ≤ 62 ∨ State.reset.cap ≤ 0) ∧
    (State.reset.cap ≤ 0 ∨ State.reset.cap ≤ 62) := by decide
/-- C = 62 with a full ring, and C = 2 with an empty one. -/
theorem test_hyps_ArithmeticLaws :
    (2 ≤ 62 ∧ 1 < 62 ∧ 0 < 62 ∧ used 62 1 0 = .ok 61 ∧ free 62 1 0 = .ok 0 ∧ adv 62 0 = .ok 1) ∧
    (2 ≤ 2 ∧ 1 < 2 ∧ used 2 1 1 = .ok 0 ∧ free 2 1 1 = .ok 1 ∧ adv 2 1 = .ok 0) :=
  ⟨⟨by decide, by decide, by decide, rfl, rfl, rfl⟩, by decide, by decide, rfl, rfl, rfl⟩

/-- A run that is faulted and refused. -/
def marked : State := { State.reset with fault := some (.drainOverrun .b), refusal := some .subword }
theorem test_hyps_FirstFaultAndRefusalAreKept : step marked = .next marked ∧ marked.fault = some (.drainOverrun .b) ∧
    marked.refusal = some .subword := ⟨rfl, rfl, rfl⟩

/-- Port A with all three agents ended. -/
def allEnded (l : List Input) : State :=
  { State.reset with
    a := { PortState.reset with directEnded := true, callerEnded := true, handlerEnded := true }, inputs := l }
theorem test_hyps_FaultedAgentTakesNoFurtherStep :
    ((allEnded [.callRead .a 5]).inputs = .callRead .a 5 :: [] ∧ agentOf (.callRead .a 5) = some ⟨.a, .direct⟩ ∧
      ended (allEnded [.callRead .a 5]) ⟨.a, .direct⟩ = true) ∧
    ((allEnded [.caller .a]).inputs = .caller .a :: [] ∧ agentOf (.caller .a) = some ⟨.a, .caller⟩ ∧
      ended (allEnded [.caller .a]) ⟨.a, .caller⟩ = true) ∧
    ((allEnded [.handler .a]).inputs = .handler .a :: [] ∧ agentOf (.handler .a) = some ⟨.a, .handler⟩ ∧
      ended (allEnded [.handler .a]) ⟨.a, .handler⟩ = true) := by decide
theorem test_hyps_FaultsAndRefusalsChangeNoBlockState :
    ((nextOf (step (given State.reset [.callRead .a 128]))).map fun t => decide (t.fault ≠ none)) = some true ∧
    ((nextOf (step (given State.reset [.issue ⟨.a, 0x0BF, 1, 0, 0⟩]))).map fun t => decide (t.refusal ≠ none)) =
      some true ∧ State.reset.fault = none ∧ State.reset.refusal = none := by decide

/-- V-IRQ-6 at port A after INIT, with a delivery next. -/
def deliverable : State :=
  { bothArmed with a := { armed with pend := true }, inputs := [.interrupt .a] }
theorem test_hyps_DeliveryEntersTheHandler : deliverable.inputs = .interrupt .a :: [] ∧
    (portOf deliverable .a).inh = false ∧ (portOf deliverable .a).initDone = true ∧
    (irq deliverable .a = true ∨ Config.spuriousDelivery = true) :=
  ⟨rfl, rfl, rfl, .inl (irq_of_armed_pending deliverable .a rfl rfl)⟩
/-- The handler runs, or INIT has not completed, or (where the platform makes no spurious calls) IRQ is low. -/
theorem test_hyps_NoDeliveryOutsideItsConditions :
    (let s := given { bothArmed with a := { armed with inh := true } } [.interrupt .a]
     s.inputs = .interrupt .a :: [] ∧ (portOf s .a).inh = true) ∧
    (let s := given State.reset [.interrupt .a]
     s.inputs = .interrupt .a :: [] ∧ (portOf s .a).initDone = false) ∧
    (let s := given bothArmed [.interrupt .a]
     s.inputs = .interrupt .a :: [] ∧ (portOf s .a).inh = false ∧ (portOf s .a).initDone = true ∧
       irq s .a = false) := ⟨⟨rfl, rfl⟩, ⟨rfl, rfl⟩, rfl, rfl, rfl, rfl⟩

/-- Port A's handler at D7. -/
def atD7 : Drain := { Drain.start with pos := .d7 }
theorem test_hyps_AcknowledgementReturnsOrFaults :
    (let s := { bothArmed with a := { armed with inh := true, drain := some atD7 } }
     (portOf s .a).drain = some atD7 ∧ atD7.pos = .d7 ∧ (portOf s .a).handlerEnded = false) ∧
    ((0 : Word) = 0 ∧ (3 : Word) ≠ 0) := by decide

/-- A doorbell by a direct word and by SEND's Sf; and a read, which rings nothing. -/
theorem test_hyps_AStepReachesThePeerOnlyByDoorbell :
    (let s := given State.reset [.issue ⟨.a, 0x0BF, 0xFFFFFFFFFFFFFFFF, 0, 0⟩]
     s.inputs = .issue ⟨.a, 0x0BF, 0xFFFFFFFFFFFFFFFF, 0, 0⟩ :: [] ∧
       Rings s (.issue ⟨.a, 0x0BF, 0xFFFFFFFFFFFFFFFF, 0, 0⟩) .a ∧
       (nextOf (step s)).map (fun t => t.b.pend) = some true) ∧
    (let s := given { bothArmed with a := { armed with caller := .send { Send.start [7] with pos := .sf } } } [.caller .a]
     s.inputs = .caller .a :: [] ∧ Rings s (.caller .a) .a ∧ (nextOf (step s)).map (fun t => t.b.pend) = some true) ∧
    (let s := given State.reset [.callRead .a 5]
     s.inputs = .callRead .a 5 :: [] ∧ actsFor (.callRead .a 5) = some .a ∧ ¬ Rings s (.callRead .a 5) .a ∧
       step s = .next State.reset) :=
  ⟨⟨rfl, ⟨rfl, rfl⟩, rfl⟩, ⟨rfl, ⟨rfl, rfl⟩, rfl⟩, rfl, rfl, (fun h => nomatch h.2), rfl⟩
/-- The peer's doorbell; an own write of RXCSR by a call, by INIT and by DRAIN; the reset event; a read of RX_CSR. -/
theorem test_hyps_PendMovesOnlyByDoorbellAndRearm :
    Rings (given State.reset [.callWrite .a 63 0xFFFFFFFFFFFFFFFF]) (.callWrite .a 63 0xFFFFFFFFFFFFFFFF)
      (other .b) ∧
    Arms (given deliverable [.callWrite .a 127 0]) (.callWrite .a 127 0) .a 0 ∧
    Arms { State.reset with b := { PortState.reset with caller := .init }, inputs := [.caller .b] } (.caller .b) .b
      0xFFFFFFFFFFFFFFFF ∧
    Arms { bothArmed with
      a := { armed with inh := true, drain := some { Drain.start with pos := .d2Write, valid := 5 } },
      inputs := [.handler .a] } (.handler .a) .a 0x8000000000000005 ∧
    (given deliverable [.reset]).inputs = .reset :: [] ∧
    (let s := given deliverable [.callRead .a 127]
     s.inputs = .callRead .a 127 :: [] ∧ ¬ Rings s (.callRead .a 127) (other .a) ∧
       (∀ v, ¬ Arms s (.callRead .a 127) .a v) ∧ (nextOf (step s)).map (fun t => t.a.pend) = some true) :=
  ⟨⟨rfl, rfl⟩, ⟨rfl, rfl⟩, ⟨rfl, rfl⟩, ⟨rfl, rfl⟩, rfl, rfl, fun h => (nomatch h.2), fun _ h => (nomatch h.2), rfl⟩
/-- A write of another value to TX_CSR, a write of the peer's slots and a host access inside a cell ring nothing. -/
theorem test_writeAccess_other : writeAccess State.reset (.callWrite .a 63 1) = some (63, 1) ∧
    writeAccess State.reset (.issue ⟨.b, 0x0C1, 9, 0, 0⟩) = some (65, 9) ∧
    writeAccess State.reset (.issue ⟨.b, 0x041, 9, 0, 0⟩) = none ∧
    writeAccess State.reset (.hostWrite .a (Config.windowBase + 1) 4 9) = none := ⟨rfl, rfl, rfl, rfl⟩

/-- V-IRQ-7 and V-IRQ-14, at port A. -/
theorem test_hyps_DoorbellAndRearmTakeTheirOrder :
    (portOf bothArmed .a).directEnded = false ∧ (portOf bothArmed (other .a)).directEnded = false ∧
    (given bothArmed [.callWrite .b 63 Config.doorbell, .callWrite .a 127 Config.doorbell]).inputs =
      .callWrite (other .a) 63 Config.doorbell :: .callWrite .a 127 0xFFFFFFFFFFFFFFFF :: [] ∧
    (given bothArmed [.callWrite .a 127 Config.doorbell, .callWrite .b 63 Config.doorbell]).inputs =
      .callWrite .a 127 0xFFFFFFFFFFFFFFFF :: .callWrite (other .a) 63 Config.doorbell :: [] := by decide

theorem test_hyps_InitArmsThePort :
    (let s := given State.reset [.init .a, .caller .a]
     s.inputs = .init .a :: .caller .a :: [] ∧ (portOf s .a).initDone = false ∧ (portOf s .a).inh = false ∧
       (portOf s .a).callerEnded = false ∧ (portOf s .a).caller = .idle) := by decide

theorem test_hyps_DrainWaitsForAHeldLock :
    (let s := { bothArmed with a := { armed with drain := some Drain.start, lock := .held } }
     (portOf s .a).drain = some Drain.start ∧ (portOf s .a).handlerEnded = false ∧ Drain.start.pos = .d1 ∧
       (portOf s .a).lock = .held) ∧
    (let s := { bothArmed with a := { armed with drain := some Drain.start } }
     (portOf s .a).drain = some Drain.start ∧ (portOf s .a).handlerEnded = false ∧ (portOf s .a).lock = .free) := by
  decide
theorem test_hyps_HandlerHoldsTheOrdinaryContext :
    (portOf { bothArmed with a := { armed with inh := true } } .a).inh = true := by decide

/-- V-DR-6 at its last iteration. -/
def atOverrun : Drain := { Drain.start with pos := .d4, head := 61, tail := 62, n := 61 }
/-- V-DR-7's two heads, 100 at the read and 62 at the advance and at the publish. -/
def readingAt (pos : DrainPos) (head : Nat) : Drain := { Drain.start with pos := pos, head := head, n := 1 }
/-- V-SN-7 at Sb, and the same with the peer's head. -/
def usingAt (head tail : Nat) : Send := { Send.start [1] with pos := .sb, head := head, tail := tail }
theorem test_hyps_SequencesFaultOutsideTheirRanges :
    (∀ d ∈ [atOverrun, readingAt .d4 64, readingAt .d4 100, readingAt .d4Adv 62, readingAt .d5Write 62],
      let s := { bothArmed with a := { armed with drain := some d } }
      (portOf s .a).drain = some d ∧ (portOf s .a).handlerEnded = false) ∧
    (atOverrun.pos = .d4 ∧ atOverrun.head ≠ atOverrun.tail ∧ atOverrun.n = State.reset.cap - 1) ∧
    ((readingAt .d4 64).head ≠ (readingAt .d4 64).tail ∧ (readingAt .d4 64).n ≠ State.reset.cap - 1 ∧
      128 ≤ 64 + (readingAt .d4 64).head) ∧
    State.reset.cap ≤ (readingAt .d4Adv 62).head ∧ State.reset.cap ≤ (readingAt .d5Write 62).head ∧
    (∀ x ∈ [usingAt 0 62, usingAt 62 0],
      let s := { bothArmed with a := { armed with caller := .send x } }
      (portOf s .a).caller = .send x ∧ (portOf s .a).callerEnded = false ∧ (portOf s .a).inh = false ∧
        x.pos = .sb ∧ (s.cap ≤ x.head ∨ s.cap ≤ x.tail)) := by decide
/-- A delivery is owed only after INIT; a grant only where DRAIN waits at D1 with the lock free. -/
theorem test_owed : deliveryOwed { deliverable with a := { deliverable.a with initDone := false } } .a = false ∧
    deliveryOwed deliverable .a = true ∧
    lockOwed { bothArmed with a := { armed with drain := some Drain.start } } .a = true ∧
    lockOwed { bothArmed with a := { armed with drain := some Drain.start, lock := .held } } .a = false ∧
    lockOwed { bothArmed with a := { armed with drain := some atD7 } } .a = false := by
  refine ⟨by simp [deliveryOwed, portOf], ?_, rfl, rfl, rfl⟩
  rw [deliveryOwed, irq_of_armed_pending deliverable .a rfl rfl]
  rfl

/-- Port A's handler entered. -/
def drainingA : PortState := { armed with inh := true, drain := some Drain.start }
/-- V-DR-5's info registers at C = 62: a full ring of 61 words (here all 0). -/
def drainFull : State := { bothArmed with
  phys := [(126, 0x3D00)], a := drainingA, inputs := List.replicate 131 (.handler .a) }
theorem test_hyps_DrainReadsTheWholeRingInOrder : MachineInv drainFull ∧
    (portOf drainFull .a).drain = some Drain.start ∧ Drain.start.pos = .d1 ∧
    (portOf drainFull .a).handlerEnded = false ∧ headGet (irOf drainFull .a) < drainFull.cap ∧
    tailGet (irOf drainFull (other .a)) < drainFull.cap ∧
    used drainFull.cap (headGet (irOf drainFull .a)) (tailGet (irOf drainFull (other .a))) = .ok 61 ∧
    drainFull.inputs = List.replicate (2 * 61 + 9) (.handler .a) ++ [] :=
  ⟨⟨by decide, by decide, by decide, by decide, by decide⟩, rfl, rfl, rfl, by decide, by decide, rfl, rfl⟩
/-- V-DR-1: an empty ring. -/
def drainEmpty : State := { bothArmed with
  phys := [(62, 0x0A07), (126, 0x0703)], a := drainingA, inputs := List.replicate 9 (.handler .a) }
theorem test_hyps_DrainReadsTheWholeRingInOrder_empty : MachineInv drainEmpty ∧
    (portOf drainEmpty .a).drain = some Drain.start ∧ headGet (irOf drainEmpty .a) < drainEmpty.cap ∧
    tailGet (irOf drainEmpty (other .a)) < drainEmpty.cap ∧
    used drainEmpty.cap (headGet (irOf drainEmpty .a)) (tailGet (irOf drainEmpty (other .a))) = .ok 0 ∧
    drainEmpty.inputs = List.replicate (2 * 0 + 9) (.handler .a) ++ [] :=
  ⟨⟨by decide, by decide, by decide, by decide, by decide⟩, rfl, by decide, by decide, rfl, rfl⟩

theorem test_hyps_EmptySendReturnsAtOnce :
    (let s := given bothArmed [.send .a [], .caller .a]
     s.inputs = .send .a [] :: .caller .a :: [] ∧ (portOf s .a).caller = .idle ∧ (portOf s .a).initDone = true ∧
       (portOf s .a).inh = false ∧ (portOf s .a).callerEnded = false) := by decide

/-- V-SN-5. -/
theorem test_hyps_ConcurrentSendIsRefused :
    (let s := given { bothArmed with a := { armed with caller := .send (Send.start [7]) } } [.send .a [8]]
     s.inputs = .send .a [8] :: [] ∧ (portOf s .a).caller = .send (Send.start [7]) ∧
       (portOf s .a).callerEnded = false) := by decide

/-- V-SN-4 at Sa. -/
def polling : Send := { Send.start [7] with pos := .saTx }
def pollingState : State := { bothArmed with
  phys := [(62, 0x0C00), (126, 0x000D)], a := { armed with caller := .send polling },
  inputs := List.replicate 4 (.caller .a) }
theorem test_hyps_FullRingMakesSendPoll : (portOf pollingState .a).caller = .send polling ∧ polling.pos = .saTx ∧
    (portOf pollingState .a).callerEnded = false ∧ (portOf pollingState .a).inh = false ∧
    free pollingState.cap (headGet (irOf pollingState (other .a))) (tailGet (irOf pollingState .a)) = .ok 0 ∧
    pollingState.inputs = List.replicate 4 (.caller .a) ++ [] := ⟨rfl, rfl, rfl, rfl, rfl, rfl⟩

/-- WE-6: three words at C = 4, as many as fit. -/
def sending : State := { bothArmed with
  cap := 4, a := { armed with caller := .send (Send.start [0xAA, 0xBB, 0xCC]) },
  inputs := List.replicate 17 (.caller .a) }
theorem test_hyps_SendWritesPublishesAndRings : MachineInv sending ∧
    (portOf sending .a).caller = .send (Send.start [0xAA, 0xBB, 0xCC]) ∧ (portOf sending .a).callerEnded = false ∧
    (portOf sending .a).inh = false ∧ ([0xAA, 0xBB, 0xCC] : List Word) ≠ [] ∧
    free sending.cap (headGet (irOf sending (other .a))) (tailGet (irOf sending .a)) = .ok 3 ∧
    ([0xAA, 0xBB, 0xCC] : List Word).length ≤ 3 ∧
    sending.inputs = List.replicate (2 * ([0xAA, 0xBB, 0xCC] : List Word).length + 11) (.caller .a) ++ [] :=
  ⟨⟨by decide, by decide, by decide, by decide, by decide⟩, rfl, rfl, rfl, by decide, rfl, by decide, rfl⟩
def sendingThenDrain : State := { sending with
  inputs := List.replicate 17 (.caller .a) ++ .interrupt .b :: (List.replicate 15 (.handler .b) ++ []) }
theorem test_hyps_SentWordsAreDrainedInOrder : MachineInv sendingThenDrain ∧
    (portOf sendingThenDrain .a).caller = .send (Send.start [0xAA, 0xBB, 0xCC]) ∧
    (portOf sendingThenDrain .a).callerEnded = false ∧ (portOf sendingThenDrain .a).inh = false ∧
    ([0xAA, 0xBB, 0xCC] : List Word) ≠ [] ∧ ([0xAA, 0xBB, 0xCC] : List Word).length ≤ sendingThenDrain.cap - 1 ∧
    headGet (irOf sendingThenDrain (other .a)) < sendingThenDrain.cap ∧
    tailGet (irOf sendingThenDrain .a) = headGet (irOf sendingThenDrain (other .a)) ∧
    (portOf sendingThenDrain (other .a)).rxcsr = 0xFFFFFFFFFFFFFFFF ∧
    (portOf sendingThenDrain (other .a)).initDone = true ∧ (portOf sendingThenDrain (other .a)).inh = false ∧
    (portOf sendingThenDrain (other .a)).handlerEnded = false ∧
    sendingThenDrain.inputs = List.replicate (2 * ([0xAA, 0xBB, 0xCC] : List Word).length + 11) (.caller .a) ++
      .interrupt (other .a) ::
        (List.replicate (2 * ([0xAA, 0xBB, 0xCC] : List Word).length + 9) (.handler (other .a)) ++ []) :=
  ⟨⟨by decide, by decide, by decide, by decide, by decide⟩, rfl, rfl, rfl, by decide, by decide, by decide, rfl, rfl,
    rfl, rfl, rfl, rfl⟩

/-- P6 at step 9: the info register holds HEAD 2, SEND's read of it held HEAD 0. -/
def publishing : Send := { Send.start [0xD0] with pos := .seWrite, r := 0, tail := 1, k := 1 }
theorem test_hyps_SendPublishUndoesADrainInBetween :
    (let s := { bothArmed with phys := [(62, 0x002)], a := { armed with caller := .send publishing } }
     MachineInv s ∧ (portOf s .a).caller = .send publishing ∧ publishing.pos = .seWrite ∧
       (portOf s .a).callerEnded = false ∧ (portOf s .a).inh = false ∧ headGet (irOf s .a) ≠ headGet publishing.r) :=
  ⟨⟨by decide, by decide, by decide, by decide, by decide⟩, rfl, rfl, rfl, rfl, by decide⟩

/-- A handler's step, and a SEND's write of a slot. -/
def writing : Send := { Send.start [7] with pos := .sdWrite, tail := 61, k := 1 }
theorem test_hyps_SequencesWriteOnlyTheirOwnCells :
    (MachineInv drainFull ∧ drainFull.inputs = .handler .a :: List.replicate 130 (.handler .a) ∧
      agentOf (.handler .a) = some ⟨.a, .handler⟩ ∧ Ctx.handler ≠ .direct) ∧
    (let s := given { bothArmed with a := { armed with caller := .send writing } } [.caller .a]
     MachineInv s ∧ s.inputs = .caller .a :: [] ∧ agentOf (.caller .a) = some ⟨.a, .caller⟩ ∧ Ctx.caller ≠ .direct ∧
       step s = .next { bothArmed with
         phys := [(61, 7)], a := { armed with caller := .send { writing with pos := .sdAdv } } } ∧
       63 ≠ irCell .a ∧ ∀ i, i < s.cap → 63 ≠ sendSlotCell .a i) :=
  ⟨⟨⟨by decide, by decide, by decide, by decide, by decide⟩, rfl, rfl, by decide⟩,
    ⟨by decide, by decide, by decide, by decide, by decide⟩, rfl, rfl, by decide, rfl, by decide, by decide⟩

theorem test_hyps_ResetEventZeroesBothPorts : (given marked [.reset]).inputs = .reset :: [] := by decide
theorem test_hyps_EveryStepKeepsTheInvariant : MachineInv (given State.reset [.init .a]) ∧
    step (given State.reset [.init .a]) =
      .next { State.reset with a := { PortState.reset with caller := .init } } :=
  ⟨⟨by decide, by decide, by decide, by decide, by decide⟩, rfl⟩
theorem test_hyps_DisciplinedStepsKeepTheRingsAndNeverFault : MachineInv drainFull ∧ RingInv drainFull ∧
    drainFull.inputs = .handler .a :: List.replicate 130 (.handler .a) ∧ disciplined (.handler .a) = true ∧
    step drainFull = .next { drainFull with
      a := { drainingA with lock := .held, drain := some { Drain.start with pos := .d2Read } },
      inputs := List.replicate 130 (.handler .a) } :=
  ⟨⟨by decide, by decide, by decide, by decide, by decide⟩, ⟨by decide, by decide, by decide, by decide⟩, rfl, rfl,
    rfl⟩

end Sys2Proof.Tests
end

section
/-! PROOFS. The fault record and the refusal mark (10 R40, R41): every step keeps the first of each, and a state that has
one is never the end of a run. -/

namespace Sys2Proof.Proofs.Marks

open Sys2Proof.Machine Sys2Proof.Safety

/-- A fault record and a refusal mark that `s` has are the ones `t` has. -/
def MarksKept (s t : State) : Prop :=
  (∀ f, s.fault = some f → t.fault = some f) ∧ (∀ r, s.refusal = some r → t.refusal = some r)

theorem MarksKept.of_eq {s t : State} (hf : t.fault = s.fault) (hr : t.refusal = s.refusal) : MarksKept s t :=
  ⟨fun _ h => hf.trans h, fun _ h => hr.trans h⟩

/-- A fault is recorded only where no record stands (10 R40). -/
theorem raiseFault_marksKept (ag : Agent) (f : Fault) (s : State) : MarksKept s (raiseFault ag f s) :=
  ⟨fun g h => by simp [h], fun r h => by simp [h]⟩

/-- A refusal is marked only where no mark stands (10 R41). -/
theorem refuse_marksKept (r : Refusal) (s : State) : MarksKept s (refuse r s) :=
  ⟨fun f h => by simp [h], fun q h => by simp [h]⟩

/-- Of the seven effects only a fault and a refusal write the record or the mark. -/
theorem effect_marksKept {p : Port} {s t : State} {w : Option (Nat × Word)} (h : Effect p s w t) : MarksKept s t := by
  cases h with
  | stays => exact .of_eq rfl rfl
  | localTo P _ _ _ => exact .of_eq (setPort_fault s p P) (setPort_refusal s p P)
  | faults c f _ => exact raiseFault_marksKept _ f s
  | refuses r _ => exact refuse_marksKept r s
  | stores _ _ P _ _ _ _ _ _ => exact .of_eq (setPort_fault _ p P) (setPort_refusal _ p P)
  | rings P _ _ _ => exact .of_eq (by simp [doorbellPulse]) (by simp [doorbellPulse])
  | arms _ P _ _ _ => exact .of_eq (setPort_fault s p P) (setPort_refusal s p P)

theorem step_marksKept {s t : State} (h : step s = .next t) : MarksKept s t := by
  obtain ⟨-, rfl⟩ | ⟨e, rest, -, ⟨-, rfl⟩ | ⟨p, w, -, -, he⟩⟩ := step_cases h
  · exact .of_eq rfl rfl
  · exact .of_eq rfl rfl
  · exact (effect_marksKept he : MarksKept { s with inputs := rest } t)

/-- At the end of a run there is neither a fault record nor a refusal mark (43 R139). -/
theorem noMarks_of_atEnd {s : State} (h : atEnd s = true) : s.fault = none ∧ s.refusal = none := by
  simp only [atEnd, Bool.and_eq_true, Option.isNone_iff_eq_none] at h
  obtain ⟨⟨⟨⟨⟨hf, hr⟩, -⟩, -⟩, -⟩, -⟩ := h
  exact ⟨hf, hr⟩

/-- Settles O32: only a fault and a refusal touch the record and the mark, and both keep one that stands. -/
theorem firstFaultAndRefusalAreKept : Obligations.FirstFaultAndRefusalAreKept := by
  refine ⟨rfl, rfl, fun s t h => step_marksKept h, fun s hs => Bool.eq_false_iff.mpr fun hend => ?_⟩
  obtain ⟨hf, hr⟩ := noMarks_of_atEnd hend
  exact hs.elim (absurd hf) (absurd hr)

end Sys2Proof.Proofs.Marks
end

section
/-! PROOFS. Byte-addressed host accesses (20 R50, R52, R53): which addresses are a cell's, and what a host access is
where its address and size are a cell's and where they are not. -/

namespace Sys2Proof.Proofs.HostBytes

open Sys2Proof.Machine

/-- The access reaches cell `i` exactly where it is 8 bytes at the address of cell `i`. -/
theorem hostIndexWith_eq_some_iff {base addr size i : Nat} :
    hostIndexWith base addr size = some i ↔ size = 8 ∧ i < 128 ∧ addr = base + 8 * i := by
  unfold hostIndexWith Config.ncells
  split
  · next h =>
    simp only [Option.some.injEq]
    omega
  · next h =>
    simp only [reduceCtorEq, false_iff]
    omega

theorem hostIndex_cell {i : Nat} (hi : i < 128) : hostIndex (Config.windowBase + 8 * i) 8 = some i :=
  hostIndexWith_eq_some_iff.mpr ⟨rfl, hi, rfl⟩

theorem hostIndex_eq_none {addr size : Nat} (h : size ≠ 8 ∨ ∀ i, i < 128 → addr ≠ Config.windowBase + 8 * i) :
    hostIndex addr size = none := by
  refine Option.eq_none_iff_forall_ne_some.mpr fun i hs => ?_
  obtain ⟨hsize, hi, haddr⟩ := hostIndexWith_eq_some_iff.mp hs
  exact h.elim (absurd hsize) fun hcells => hcells i hi haddr

variable {s : State} {p : Port} {addr size : Nat}

/-- A host access that reaches a cell is the accessor call at its index, whether the agent has ended or not. -/
theorem perform_hostRead_of_some {i : Nat} (h : hostIndex addr size = some i) :
    perform (.hostRead p addr size) s = perform (.callRead p i) s := by
  simp only [perform, hostRead, h]

theorem perform_hostWrite_of_some {i : Nat} {v : Word} (h : hostIndex addr size = some i) :
    perform (.hostWrite p addr size v) s = perform (.callWrite p i v) s := by
  simp only [perform, hostWrite, h]

theorem byDirect_of_notEnded {o : Host.Outcome State Fault Refusal} (hp : (portOf s p).directEnded = false) :
    byDirect p s o = o := by
  simp [byDirect, hp]

theorem perform_hostRead_of_none (hp : (portOf s p).directEnded = false) (h : hostIndex addr size = none) :
    perform (.hostRead p addr size) s = .next (refuse .subword s) := by
  simp only [perform, byDirect_of_notEnded hp, hostRead, h]

theorem perform_hostWrite_of_none {v : Word} (hp : (portOf s p).directEnded = false)
    (h : hostIndex addr size = none) : perform (.hostWrite p addr size v) s = .next (refuse .subword s) := by
  simp only [perform, byDirect_of_notEnded hp, hostWrite, h]

/-- Settles O18: a host access is decided by its `hostIndex`, which is `i` at the 8 bytes of cell `i` and nothing
elsewhere. -/
theorem hostBytesReachWholeCellsOnly : Obligations.HostBytesReachWholeCellsOnly := by
  refine fun s p addr size v hp => ⟨fun i hi => ?_, fun h => ?_⟩
  · exact ⟨perform_hostRead_of_some (hostIndex_cell hi), perform_hostWrite_of_some (hostIndex_cell hi)⟩
  · have hnone := hostIndex_eq_none h
    exact ⟨perform_hostRead_of_none hp hnone, perform_hostWrite_of_none hp hnone⟩

end Sys2Proof.Proofs.HostBytes
end

section
/-! PROOFS. The opcode map read by the number of the word (30 R73, R74, R76): a BUS word is `busWord` of its WE and its
IDX, and a FUNC word is rejected from 0x10B on. -/

namespace Sys2Proof.Proofs.OpcodeMap

open Sys2Proof.Machine

section BusWords

variable {w : BitVec 9}

/-- Below 0x080 WE is 0 (30 R69). -/
theorem eq_busWord_read (h : w.toNat < 0x080) : w = busWord false (w.setWidth 7) := by revert w; decide

/-- From 0x080 to 0x0FF WE is 1 (30 R69). -/
theorem eq_busWord_write (hl : 0x080 ≤ w.toNat) (hu : w.toNat < 0x100) : w = busWord true (w.setWidth 7) := by
  revert w; decide

theorem isTxSlotIdx_setWidth : isTxSlotIdx (w.setWidth 7) = true ↔ w.toNat % 0x080 ≤ 61 := by
  simp [isTxSlotIdx]

theorem isRxSlotIdx_setWidth :
    isRxSlotIdx (w.setWidth 7) = true ↔ 64 ≤ w.toNat % 0x080 ∧ w.toNat % 0x080 ≤ 125 := by
  simp [isRxSlotIdx]

variable {p : Port} {v : Word} {x y : Nat}

theorem decode_eq_rdOf {i : BitVec 7} (h : w = busWord false i) : decode ⟨p, w, v, x, y⟩ = .ok (rdOf p i) :=
  h ▸ decode_busWord_read p i v x y

theorem decode_eq_wrOf {i : BitVec 7} (h : w = busWord true i) : decode ⟨p, w, v, x, y⟩ = .ok (wrOf p i v) :=
  h ▸ decode_busWord_write p i v x y

theorem decode_of_toNat_eq {c : BitVec 9} {i : Instr} (hc : decode ⟨p, c, v, x, y⟩ = .ok i)
    (h : w.toNat = c.toNat) : decode ⟨p, w, v, x, y⟩ = .ok i :=
  BitVec.eq_of_toNat_eq h ▸ hc

end BusWords

/-- Settles O4: the four slot ranges by the range of their index, the eight single words by their index itself. -/
theorem busWordsDecodeByRange : Obligations.BusWordsDecodeByRange := by
  intro p w v x y
  have read (i : BitVec 7) := decode_of_toNat_eq (w := w) (decode_busWord_read p i v x y)
  have write (i : BitVec 7) := decode_of_toNat_eq (w := w) (decode_busWord_write p i v x y)
  refine ⟨fun h => ?rdTxSlot, read 62, read 63, fun ⟨hl, hu⟩ => ?rdRxSlot, read 126, read 127,
    fun ⟨hl, hu⟩ => ?wrTxSlot, write 62, write 63, fun ⟨hl, hu⟩ => ?wrRxSlot, write 126, write 127⟩
  case rdTxSlot =>
    rw [decode_eq_rdOf (eq_busWord_read (by omega)), rdOf_txSlot p (isTxSlotIdx_setWidth.mpr (by omega))]
  case rdRxSlot =>
    rw [decode_eq_rdOf (eq_busWord_read (by omega)), rdOf_rxSlot p (isRxSlotIdx_setWidth.mpr (by omega))]
  case wrTxSlot =>
    rw [decode_eq_wrOf (eq_busWord_write (by omega) (by omega)),
      wrOf_txSlot p v (isTxSlotIdx_setWidth.mpr (by omega))]
  case wrRxSlot =>
    rw [decode_eq_wrOf (eq_busWord_write (by omega) (by omega)),
      wrOf_rxSlot p v (isRxSlotIdx_setWidth.mpr (by omega))]

/-- The fields of a FUNC word as numbers (30 R70). -/
theorem opw_func_fields {w : BitVec 9} (h : 0x100 ≤ w.toNat) :
    (opwZ w = 0 ↔ w.toNat < 0x110) ∧ opwFsel w = w.toNat % 0x10 := by revert w; decide

/-- The function table has the rows 0 to 10 (30 R74). -/
theorem funcOf_eq_none_iff (r : Request) : ∀ k : Nat, funcOf r k = none ↔ 11 ≤ k
  | 0 | 1 | 2 | 3 | 4 | 5 | 6 | 7 | 8 | 9 | 10 => by simp [funcOf]
  | _ + 11 => by simp [funcOf]

/-- ILLEGAL, by the fields of a FUNC word (30 R76). -/
theorem decode_eq_illegal_iff_of_func {r : Request} (h : opwIsFunc r.opw = true) :
    decode r = .error (.illegal r.opw) ↔ opwZ r.opw ≠ 0 ∨ 11 ≤ opwFsel r.opw := by
  rw [decode, if_pos h]
  split
  · next hz => exact iff_of_true rfl (.inl hz)
  · next hz =>
    rw [or_iff_right hz, ← funcOf_eq_none_iff r]
    cases funcOf r (opwFsel r.opw) <;> simp

/-- ILLEGAL, by the number of the word (30 R76). -/
theorem decode_eq_illegal_iff {r : Request} : decode r = .error (.illegal r.opw) ↔ 0x10B ≤ r.opw.toNat := by
  by_cases h : 0x100 ≤ r.opw.toNat
  · obtain ⟨hz, hfsel⟩ := opw_func_fields h
    have hfunc : opwIsFunc r.opw = true := (opw_fields r.opw).1.trans (decide_eq_true h)
    rw [decode_eq_illegal_iff_of_func hfunc, Ne, hz, hfsel]
    omega
  · exact ⟨fun hd => absurd (isFunc_of_decode_error hd) h, fun hw => by omega⟩

theorem performRequest_of_illegal {r : Request} (h : decode r = .error (.illegal r.opw)) (s : State) :
    performRequest r s = .next (raiseFault ⟨r.port, .direct⟩ (.illegalOp r.opw) s) := by
  rw [performRequest, h]

/-- A direct agent that has not faulted performs its request (60 R142). -/
theorem step_issue_of_notEnded {s : State} {r : Request} {rest : List Input} (hs : s.inputs = .issue r :: rest)
    (hp : (portOf s r.port).directEnded = false) : step s = performRequest r { s with inputs := rest } := by
  rw [step, hs]
  exact HostBytes.byDirect_of_notEnded hp

/-- Settles O7: decoding by the number of the word, and a step that performs what does not decode. -/
theorem illegalWordsRaiseTheirFault : Obligations.IllegalWordsRaiseTheirFault := by
  refine fun r => ⟨decode_eq_illegal_iff, fun s rest hs hp hw => ?_⟩
  rw [step_issue_of_notEnded hs hp, performRequest_of_illegal (decode_eq_illegal_iff.mpr hw)]

end Sys2Proof.Proofs.OpcodeMap
end

section
/-! PROOFS. The register window (40 R84 to R96): each BUS operation is one access of the accessor at its window index, by
its meaning in `exec`, so what it does is what that access does, said here once for a read of a cell, a read of a CSR and
a write of a cell; the two writes of a CSR have the accessor's own lemmas. -/

namespace Sys2Proof.Proofs.RegisterWindow

open Sys2Proof.Machine Sys2Proof.Safety

/-! The words (30 R69). -/

theorem busWord_read_toNat (i : BitVec 7) : (busWord false i).toNat = i.toNat := by revert i; decide

theorem busWord_write_toNat (i : BitVec 7) : (busWord true i).toNat = 0x080 + i.toNat := by revert i; decide

/-! Accesses of the direct agent. -/

section Accesses

variable {s : State} {p : Port} {i : Nat}

theorem answerRead_of_lt (hi : i < 128) :
    answerRead p (memRead s p i) s = .next (deliversWord s p (view s p i)) := by
  rw [memRead_of_lt s p hi]
  rfl

theorem answerRead_cell {k : Nat} (hi : i < 128) (h1 : i ≠ 63) (h2 : i ≠ 127) (hk : physIndex p i = k) :
    answerRead p (memRead s p i) s = .next (deliversWord s p (readCell s.phys k)) := by
  rw [answerRead_of_lt hi, view_cell s p h1 h2, hk]

theorem storesOnly_writeCell (hwf : s.phys.wf = true) (k : Nat) (v : Word) :
    StoresOnly s { s with phys := writeCell s.phys k v } k v :=
  ⟨readCell_writeCell_same s.phys k v (indicesRise_of_wf hwf), fun _ hne => readCell_writeCell_ne s.phys v hne, rfl⟩

theorem answerWrite_cell {k : Nat} {v : Word} (hwf : s.phys.wf = true) (hi : i < 128) (h1 : i ≠ 63) (h2 : i ≠ 127)
    (hk : physIndex p i = k) : ∃ t, answerWrite p (memWrite s p i v) s = .next t ∧ StoresOnly s t k v := by
  rw [memWrite_cell s p v hi h1 h2, hk]
  exact ⟨_, rfl, storesOnly_writeCell hwf k v⟩

/-! Accessor calls of a direct agent that has not faulted (60 R142). -/

theorem step_callRead_of_notEnded {rest : List Input} (hs : s.inputs = .callRead p i :: rest)
    (hp : (portOf s p).directEnded = false) :
    step s = answerRead p (memRead { s with inputs := rest } p i) { s with inputs := rest } := by
  rw [step, hs]
  exact HostBytes.byDirect_of_notEnded (by simpa using hp)

theorem step_callWrite_of_notEnded {v : Word} {rest : List Input} (hs : s.inputs = .callWrite p i v :: rest)
    (hp : (portOf s p).directEnded = false) :
    step s = answerWrite p (memWrite { s with inputs := rest } p i v) { s with inputs := rest } := by
  rw [step, hs]
  exact HostBytes.byDirect_of_notEnded (by simpa using hp)

/-- The index check is the accessor's only fault (40 R84). -/
theorem memWrite_ne_fault_of_lt {v : Word} (hi : i < 128) (f : Fault) : memWrite s p i v ≠ .error (.fault f) := by
  intro h
  obtain ⟨hge, -⟩ | ⟨-, -, hst⟩ := memWrite_error h
  · omega
  · cases hst

end Accesses

/-! The obligations. -/

/-- Settles O9: a read of a slot's index delivers the cell that the port reaches there. -/
theorem slotReadsDeliverTheirCell : Obligations.SlotReadsDeliverTheirCell := by
  refine fun s p i => ⟨fun h => ⟨?_, ?_⟩, fun ⟨hl, hu⟩ => ⟨?_, ?_⟩⟩
  · exact (busWord_read_toNat i).trans (by omega)
  · exact answerRead_cell (by omega) (by omega) (by omega) (physIndex_txSlot p h)
  · exact (busWord_read_toNat i).trans (by omega)
  · exact answerRead_cell (by omega) (by omega) (by omega) (physIndex_rxSlot p hl hu)

/-- Settles O10: a write of a slot's index stores in the cell that the port reaches there. -/
theorem slotWritesStoreOnlyTheirCell : Obligations.SlotWritesStoreOnlyTheirCell := by
  refine fun s p i v hwf => ⟨fun h => ⟨?_, ?_⟩, fun ⟨hl, hu⟩ => ⟨?_, ?_⟩⟩
  · exact busWord_write_toNat i
  · exact answerWrite_cell hwf (by omega) (by omega) (by omega) (physIndex_txSlot p h)
  · exact (busWord_write_toNat i).trans (by omega)
  · exact answerWrite_cell hwf (by omega) (by omega) (by omega) (physIndex_rxSlot p hl hu)

/-- Settles O11: indices 62 and 126 reach the own and the other port's info register. -/
theorem infoRegisterReadsDeliverIt : Obligations.InfoRegisterReadsDeliverIt := fun _ p =>
  ⟨rfl, rfl, answerRead_cell (by decide) (by decide) (by decide) (physIndex_txIr p),
    answerRead_cell (by decide) (by decide) (by decide) (physIndex_rxIr p)⟩

/-- Settles O12: a write of index 62 or 126 stores in the own or the other port's info register. -/
theorem infoRegisterWritesStoreOnlyIt : Obligations.InfoRegisterWritesStoreOnlyIt := fun _ p _ hwf =>
  ⟨rfl, rfl, answerWrite_cell hwf (by decide) (by decide) (by decide) (physIndex_txIr p),
    answerWrite_cell hwf (by decide) (by decide) (by decide) (physIndex_rxIr p)⟩

/-- Settles O13: indices 63 and 127 view the port's own CSRs. -/
theorem csrReadsDeliverThem : Obligations.CsrReadsDeliverThem := fun _ _ =>
  ⟨rfl, rfl, answerRead_of_lt (i := 63) (by decide), answerRead_of_lt (i := 127) (by decide)⟩

/-- Settles O14: a write of index 63 is the doorbell or the refusal, by its value. -/
theorem txCsrWriteRingsThePeerOrIsRefused : Obligations.TxCsrWriteRingsThePeerOrIsRefused := by
  refine fun s p v => ⟨rfl, fun hv => ?rings, fun hv => ?refused⟩
  case rings =>
    subst hv
    refine ⟨_, congrArg (answerWrite p · s) (memWrite_doorbell s p), ?_, ?_, ?_⟩
    · rw [portOf_modPort_ne _ _ (ne_other p), portOf_modPort]
      rfl
    · rw [portOf_modPort, portOf_modPort_other]
    · cases p <;> rfl
  case refused =>
    refine ⟨_, congrArg (answerWrite p · s) (memWrite_notDoorbell s p hv), rfl, ?_⟩
    simp only [stopWith, refuse_refusal]
    cases s.refusal <;> rfl

/-- Settles O15: a write of index 127 changes two registers of its port. -/
theorem rxCsrWriteStoresAndClearsPend : Obligations.RxCsrWriteStoresAndClearsPend := by
  refine fun s p v => ⟨rfl, _, congrArg (answerWrite p · s) (memWrite_rxCsr s p v), ?_, ?_, ?_⟩
  · exact portOf_modPort s p _
  · exact portOf_modPort_other s p _
  · cases p <;> rfl

/-- Settles O16: the accessor checks the index before the access, and has no other fault. -/
theorem indexAbove127Faults : Obligations.IndexAbove127Faults := by
  refine fun s p i v rest hp => ⟨fun ⟨hi, hs⟩ => ?read, fun ⟨hi, hs⟩ => ?write, fun hi => ?below⟩
  case read =>
    rw [step_callRead_of_notEnded hs hp, memRead_of_ge _ p hi]
    rfl
  case write =>
    rw [step_callWrite_of_notEnded hs hp, memWrite_of_ge _ p v hi]
    rfl
  case below => exact ⟨memRead_of_lt s p hi, memWrite_ne_fault_of_lt hi⟩

end Sys2Proof.Proofs.RegisterWindow
end

section
/-! PROOFS. The gets, the packs and the CSR's fields (41 R100 to R105): each answers one value or one fault, by its
meaning in `exec`, so what is left to say is its value on numbers. -/

namespace Sys2Proof.Proofs.BitfieldCodec

open Sys2Proof.Machine Sys2Proof.Safety

/-! The answers of a function (30 R70). -/

section Answers

variable {s : State} {p : Port}

theorem answerValue_ok {v w : Nat} (h : v = w) : answerValue p (.ok v) s = .next (returnsValue s p w) := h ▸ rfl

/-- A register value is answered as its unsigned number. -/
theorem answerValue_word_ok {res : Except Fault Word} {w : Word} {v : Nat} (h : res = .ok w) (hv : w.toNat = v) :
    answerValue p (wordValue res) s = .next (returnsValue s p v) := by
  subst h hv
  rfl

theorem answerValue_word_error {res : Except Fault Word} {f : Fault} (h : res = .error f) :
    answerValue p (wordValue res) s = .next (raiseFault ⟨p, .direct⟩ f s) := by
  subst h
  rfl

end Answers

/-! The functions on numbers, where Laws does not say it. -/

/-- Bit 63 of a 64-bit value is its quotient by 2^63 (41 R104). -/
theorem csrEn_eq (csr : Word) : csrEn csr = csr.toNat / 2 ^ 63 := by
  have hlt := csr.isLt
  calc csrEn csr = csr.toNat / 2 ^ 63 % 2 := Nat.toNat_testBit csr.toNat 63
    _ = csr.toNat / 2 ^ 63 := Nat.mod_eq_of_lt (by omega)

theorem headPack_of_ge {c h : Nat} (reg : Word) (hh : c ≤ h) : headPack c reg h = .error (.fieldRange .head h) :=
  if_pos hh

theorem tailPack_of_ge {c t : Nat} (reg : Word) (ht : c ≤ t) : tailPack c reg t = .error (.fieldRange .tail t) :=
  if_pos ht

/-! The obligations. -/

/-- Settles O22: below C the packs are their numbers, which fit in 64 bits as C is at most 62; from C on they are the
fault. -/
theorem packsReplaceOneByteOrFault : Obligations.PacksReplaceOneByteOrFault := by
  refine fun s p reg x hc => ⟨rfl, rfl, fun hx => ?packs, fun hx => ?faults⟩
  case packs =>
    obtain ⟨hhead, htail⟩ := packs_toNat reg (x := x) (by omega)
    exact ⟨answerValue_word_ok (headPack_of_lt hc hx) hhead, answerValue_word_ok (tailPack_of_lt hc hx) htail⟩
  case faults =>
    exact ⟨answerValue_word_error (headPack_of_ge reg hx), answerValue_word_error (tailPack_of_ge reg hx)⟩

/-- Settles O24: CSR.EN is the quotient and CSR.VALID the remainder by 2^63. -/
theorem csrFieldsReturnTheirBits : Obligations.CsrFieldsReturnTheirBits := fun _ _ csr =>
  ⟨rfl, rfl, answerValue_ok (csrEn_eq csr), answerValue_ok (csrValid_eq csr)⟩

/-- Settles O21: HEAD.GET and TAIL.GET are the two low bytes as numbers. -/
theorem fieldGetsReturnTheirByte : Obligations.FieldGetsReturnTheirByte := fun _ _ reg =>
  ⟨rfl, rfl, answerValue_ok (headGet_eq reg), answerValue_ok (tailGet_eq reg)⟩

end Sys2Proof.Proofs.BitfieldCodec
end

section
/-! PROOFS. Pointer arithmetic (42 R107 to R111): what the four pointer functions return on indices below C and where
they fault, on numbers; the laws of R111 are then laws of the occupancy and of the next index. -/

namespace Sys2Proof.Proofs.PointerArithmetic

open Sys2Proof.Machine Sys2Proof.Safety

/-! The answers of a function (30 R70). -/

section Answers

variable {s : State} {p : Port} {res : Except Fault Nat}

theorem answerValue_of_ok {v : Nat} (h : res = .ok v) : answerValue p res s = .next (returnsValue s p v) := by
  subst h
  rfl

theorem answerValue_of_error {f : Fault} (h : res = .error f) :
    answerValue p res s = .next (raiseFault ⟨p, .direct⟩ f s) := by
  subst h
  rfl

end Answers

/-! The pointer functions on numbers, where Laws does not say it. -/

/-- The index after `i` in a ring of C slots (42 R108). -/
def nextIndex (c i : Nat) : Nat := if i + 1 = c then 0 else i + 1

section Functions

variable {c head tail i u : Nat} {f : Fault}

theorem modCap_of_ge {v : Nat} (h : 2 * c ≤ v) : modCap c v = .error (.arithRange .modCap [v]) := if_pos h

theorem adv_of_ge (h : c ≤ i) : adv c i = .error (.arithRange .adv [i]) := if_pos h

theorem adv_eq_nextIndex (h : i < c) : adv c i = .ok (nextIndex c i) := by
  rw [adv_of_lt h, nextIndex]
  split
  · next hwrap => rw [hwrap, Nat.mod_self]
  · next hne => rw [Nat.mod_eq_of_lt (by omega)]

theorem used_eq_ok_occupancy (hh : head < c) (ht : tail < c) : used c head tail = .ok (occupancy c head tail) := by
  rw [used_of_lt hh ht, used_eq_occupancy hh ht]

/-- USED checks head first and tail second, for one and the same fault (60 R145). -/
theorem used_of_ge (h : c ≤ head ∨ c ≤ tail) : used c head tail = .error (.arithRange .used [head, tail]) := by
  unfold used
  split
  · rfl
  · next hh => rw [if_pos (h.resolve_left hh)]

theorem free_of_used_ok (h : used c head tail = .ok u) : free c head tail = .ok (c - 1 - u) := by rw [free, h]

theorem free_of_used_error (h : used c head tail = .error f) : free c head tail = .error f := by rw [free, h]

/-- ADV applied `n` times adds `n` modulo C (42 R111). -/
theorem advTimes_eq_mod (h : i < c) (n : Nat) : advTimes c i n = .ok ((i + n) % c) := by
  induction n with
  | zero => rw [advTimes, Nat.add_zero, Nat.mod_eq_of_lt h]
  | succ n ih =>
    have hlt : (i + n) % c < c := Nat.mod_lt _ (by omega)
    calc advTimes c i (n + 1) = adv c ((i + n) % c) := by rw [advTimes, ih]
      _ = .ok (((i + n) % c + 1) % c) := adv_of_lt hlt
      _ = .ok ((i + (n + 1)) % c) := by rw [Nat.mod_add_mod, Nat.add_assoc]

end Functions

/-! The laws of the occupancy and the next index (42 R111). Each follows from what the two numbers are modulo C. -/

section Laws

variable {c head tail i : Nat}

/-- The next index is the number below C that is one more modulo C. -/
theorem nextIndex_spec (h : i < c) : nextIndex c i < c ∧ (nextIndex c i = i + 1 ∨ nextIndex c i + c = i + 1) := by
  unfold nextIndex
  split <;> omega

theorem nextIndex_lt (h : i < c) : nextIndex c i < c := (nextIndex_spec h).1

/-- The occupancy is the number below C that leads from head to tail modulo C. -/
theorem occupancy_spec (hh : head < c) (ht : tail < c) : occupancy c head tail < c ∧
    (head + occupancy c head tail = tail ∨ head + occupancy c head tail = tail + c) := by
  unfold occupancy
  split <;> omega

theorem occupancy_eq_zero_iff (hh : head < c) (ht : tail < c) : occupancy c head tail = 0 ↔ head = tail := by
  have hocc := occupancy_spec hh ht
  omega

/-- The ring is full where the index after its tail is its head. -/
theorem occupancy_eq_pred_iff (hh : head < c) (ht : tail < c) :
    occupancy c head tail = c - 1 ↔ nextIndex c tail = head := by
  have hocc := occupancy_spec hh ht
  have hnext := nextIndex_spec ht
  omega

/-- A produced word: a ring that is not full holds one more. -/
theorem occupancy_nextIndex_tail (hh : head < c) (ht : tail < c) (h : occupancy c head tail < c - 1) :
    occupancy c head (nextIndex c tail) = occupancy c head tail + 1 := by
  have hocc := occupancy_spec hh ht
  have hnext := nextIndex_spec ht
  have hocc' := occupancy_spec hh (nextIndex_lt ht)
  omega

/-- A consumed word: a ring that is not empty holds one less. -/
theorem occupancy_nextIndex_head (hh : head < c) (ht : tail < c) (h : 0 < occupancy c head tail) :
    occupancy c (nextIndex c head) tail = occupancy c head tail - 1 := by
  have hocc := occupancy_spec hh ht
  have hnext := nextIndex_spec hh
  have hocc' := occupancy_spec (nextIndex_lt hh) ht
  omega

end Laws

/-! The obligations. -/

/-- Settles O30: USED is the occupancy and ADV the next index, so the laws are theirs; ADV repeated has its own
induction. -/
theorem arithmeticLaws : Obligations.ArithmeticLaws := by
  refine fun c head tail _ hh ht => ⟨?ring, advTimes_eq_mod hh⟩
  have hused := used_eq_ok_occupancy hh ht
  have hle : occupancy c head tail ≤ c - 1 := Nat.le_pred_of_lt (occupancy_spec hh ht).1
  have hfull := occupancy_eq_pred_iff hh ht
  have hadv := adv_eq_nextIndex ht
  refine ⟨_, _, hused, free_of_used_ok hused, hle, Nat.sub_le _ _, Nat.add_sub_cancel' hle,
    occupancy_eq_zero_iff hh ht, ?full, fun t' h' hfree => ?produced, fun i' h' hpos => ?consumed⟩
  case full =>
    rw [hadv, Except.ok.injEq, ← hfull]
    omega
  case produced =>
    cases hadv.symm.trans h'
    rw [used_eq_ok_occupancy hh (nextIndex_lt ht), occupancy_nextIndex_tail hh ht (by omega)]
  case consumed =>
    cases (adv_eq_nextIndex hh).symm.trans h'
    rw [used_eq_ok_occupancy (nextIndex_lt hh) ht, occupancy_nextIndex_head hh ht hpos]

/-- Settles O27: MODCAP is the remainder below 2C and its fault from 2C on. -/
theorem modCapWrapsOnceOrFaults : Obligations.ModCapWrapsOnceOrFaults := fun _ _ _ =>
  ⟨rfl, fun hv => answerValue_of_ok (modCap_of_lt hv), fun hv => answerValue_of_error (modCap_of_ge hv)⟩

/-- Settles O28: ADV is the next index below C and its fault from C on. -/
theorem advMovesOneSlotOrFaults : Obligations.AdvMovesOneSlotOrFaults := fun _ _ _ =>
  ⟨rfl, fun hi => answerValue_of_ok (adv_eq_nextIndex hi), fun hi => answerValue_of_error (adv_of_ge hi)⟩

/-- Settles O29: USED is the occupancy and FREE what is left of C - 1, or both are USED's fault. -/
theorem usedAndFreeCountTheRingOrFault : Obligations.UsedAndFreeCountTheRingOrFault := by
  refine fun s p head tail => ⟨rfl, rfl, fun ⟨hh, ht⟩ => ?counts, fun hge => ?faults⟩
  case counts =>
    have hused := used_eq_ok_occupancy hh ht
    exact ⟨answerValue_of_ok hused, answerValue_of_ok (free_of_used_ok hused)⟩
  case faults =>
    have hused := used_of_ge hge
    exact ⟨answerValue_of_error hused, answerValue_of_error (free_of_used_error hused)⟩

end Sys2Proof.Proofs.PointerArithmetic
end

section
/-! PROOFS. The SEND calls of a port's ordinary context (43 R117, R138): what a send call does where a SEND is active. -/

namespace Sys2Proof.Proofs.SendCalls

open Sys2Proof.Machine

section Calls

variable {s : State} {p : Port} {x : Send} {words : List Word}

/-- A send call takes the refusal path where the SEND before it is still active, whatever the call's words and however
far that SEND is. -/
theorem startSend_of_sendActive (hx : (portOf s p).caller = .send x) (hp : (portOf s p).callerEnded = false) :
    startSend p words s = refuse .concurrentSend s := by
  simp [startSend, hx, hp]

theorem step_send {rest : List Input} (hs : s.inputs = .send p words :: rest) :
    step s = .next (startSend p words { s with inputs := rest }) := by
  rw [step, hs]
  rfl

end Calls

/-- Settles O49: the step takes the send call, and the call finds the SEND active, as taking an input changes no port. -/
theorem concurrentSendIsRefused : Obligations.ConcurrentSendIsRefused := by
  intro s p words x rest hs hx hp
  rw [step_send hs, startSend_of_sendActive (x := x) (by simpa using hx) (by simpa using hp)]

end Sys2Proof.Proofs.SendCalls
end

section
/-! PROOFS. The interrupt output (60 R155): the arbiter on the numbers of RXCSR's two fields. -/

namespace Sys2Proof.Proofs.InterruptOutput

open Sys2Proof.Machine Sys2Proof.Proofs.BitfieldCodec

theorem enBit_eq_true_iff (csr : Word) : enBit csr = true ↔ csr.toNat / 2 ^ 63 = 1 := by
  rw [← csrEn_eq, csrEn, Bool.toNat_eq_one]

theorem validField_ne_zero_iff (csr : Word) : validField csr ≠ 0 ↔ csr.toNat % 2 ^ 63 ≠ 0 := by
  rw [← csrValid_eq]
  exact BitVec.toNat_ne_iff_ne.symm

/-- The arbiter is the conjunction of R155, for either value of VALID_GATES_IRQ. -/
theorem irqWith_eq_true_iff (validGates : Bool) (P : PortState) :
    irqWith validGates P = true ↔
      P.rxcsr.toNat / 2 ^ 63 = 1 ∧ P.pend = true ∧ (validGates = false ∨ P.rxcsr.toNat % 2 ^ 63 ≠ 0) := by
  rw [irqWith, Bool.and_eq_true, Bool.and_eq_true, Bool.or_eq_true, Bool.not_eq_true', decide_eq_true_iff,
    enBit_eq_true_iff, validField_ne_zero_iff, and_assoc]

/-- Settles O35: IRQ[p] is the arbiter at the platform's VALID_GATES_IRQ, which stays open. -/
theorem irqIsEnabledPendingAndGated : Obligations.IrqIsEnabledPendingAndGated := fun s p =>
  irqWith_eq_true_iff Config.validGatesIrq (portOf s p)

end Sys2Proof.Proofs.InterruptOutput
end

section
/-! PROOFS. Reset (70 R169, R170): what each port is after the reset event. The machine right after reset is what the
reset event makes of itself, so one lemma says both. IRQ[p] is not stored: it is 0 because PEND[p] is. -/

namespace Sys2Proof.Proofs.Reset

open Sys2Proof.Machine

/-- Port `p` of `s` has the values of R170's table. -/
def PortAtReset (s : State) (p : Port) : Prop :=
  (portOf s p).txcsr = 0 ∧ (portOf s p).rxcsr = 0 ∧ (portOf s p).pend = false ∧ irq s p = false ∧
    (portOf s p).lock = .free ∧ (portOf s p).inh = false ∧ (portOf s p).caller = .idle ∧ (portOf s p).drain = none

/-- Without a pending doorbell the arbiter of R155 is 0, whatever RXCSR holds and whether or not VALID gates it. -/
theorem irq_eq_false_of_pend {s : State} {p : Port} (h : (portOf s p).pend = false) : irq s p = false := by
  simp [irq, irqWith, h]

@[simp] theorem portOf_resetEvent (s : State) (p : Port) : portOf (resetEvent s) p = resetPort (portOf s p) := by
  cases p <;> rfl

theorem portAtReset_resetEvent (s : State) (p : Port) : PortAtReset (resetEvent s) p := by
  have hirq : irq (resetEvent s) p = false := irq_eq_false_of_pend (by simp [resetPort])
  rw [PortAtReset, hirq, portOf_resetEvent]
  exact ⟨rfl, rfl, rfl, rfl, rfl, rfl, rfl, rfl⟩

theorem resetEvent_reset : resetEvent State.reset = State.reset := rfl

theorem step_reset {s : State} {rest : List Input} (hs : s.inputs = .reset :: rest) :
    step s = .next (resetEvent { s with inputs := rest }) := by
  rw [step, hs]
  rfl

/-- Settles O55: no cell is listed after reset, and the ports are those the reset event leaves. -/
theorem resetLeavesEverythingZero : Obligations.ResetLeavesEverythingZero := by
  have hports (p : Port) : PortAtReset State.reset p := resetEvent_reset ▸ portAtReset_resetEvent State.reset p
  exact ⟨fun _ => rfl, rfl, rfl, rfl, hports⟩

/-- Settles O56: the step is the reset event on the state whose input is taken. -/
theorem resetEventZeroesBothPorts : Obligations.ResetEventZeroesBothPorts := fun _ _ hs =>
  ⟨_, step_reset hs, fun _ => rfl, portAtReset_resetEvent _⟩

end Sys2Proof.Proofs.Reset
end

section
/-! PROOFS. Encoded form (30 R67 to R76, R82): decoding and encoding are inverse, by the class of a BUS word's index and
by the row of a FUNC word; and an accessor call below 128 is the BUS operation of its index (30 R71). -/

namespace Sys2Proof.Proofs.EncodedForm

open Sys2Proof.Machine

/-- A FUNC word decodes by its row of the function table (30 R74, R75). -/
theorem decode_funcWord {p : Port} {k : BitVec 4} {v : Word} {x y : Nat} {i : Instr}
    (h : funcOf ⟨p, funcWord k, v, x, y⟩ k.toNat = some i) : decode ⟨p, funcWord k, v, x, y⟩ = .ok i := by
  simp [decode, h]

/-- Settles O2: the slots by their index's range, the registers by their index, the functions by their row. -/
theorem decodeEncodeRoundTrip : Obligations.DecodeEncodeRoundTrip := by
  intro i hwf
  cases i with
  | rdTxSlot p i => exact (decode_busWord_read p i 0 0 0).trans (congrArg _ (rdOf_txSlot p hwf))
  | rdRxSlot p i => exact (decode_busWord_read p i 0 0 0).trans (congrArg _ (rdOf_rxSlot p hwf))
  | wrTxSlot p i v => exact (decode_busWord_write p i v 0 0).trans (congrArg _ (wrOf_txSlot p v hwf))
  | wrRxSlot p i v => exact (decode_busWord_write p i v 0 0).trans (congrArg _ (wrOf_rxSlot p v hwf))
  | rdTxIr p | rdTxCsr p | rdRxIr p | rdRxCsr p => exact decode_busWord_read p _ 0 0 0
  | wrTxIr p v | wrTxCsr p v | wrRxIr p v | wrRxCsr p v => exact decode_busWord_write p _ v 0 0
  | headGet | tailGet | headPack | tailPack | csrEn | csrValid | csrMake | modCap | adv | used | free =>
    exact decode_funcWord rfl

/-! The classes of a window index (30 R73). -/

theorem index_classes (i : BitVec 7) : isTxSlotIdx i = true ∨ i = 62 ∨ i = 63 ∨ isRxSlotIdx i = true ∨ i = 126 ∨
    i = 127 := by
  revert i; decide

theorem wf_encode_rdOf (p : Port) (i : BitVec 7) :
    (rdOf p i).wf = true ∧ encode (rdOf p i) = ⟨p, busWord false i, 0, 0, 0⟩ := by
  obtain h | rfl | rfl | h | rfl | rfl := index_classes i
  · rw [rdOf_txSlot p h]; exact ⟨h, rfl⟩
  · exact ⟨rfl, rfl⟩
  · exact ⟨rfl, rfl⟩
  · rw [rdOf_rxSlot p h]; exact ⟨h, rfl⟩
  · exact ⟨rfl, rfl⟩
  · exact ⟨rfl, rfl⟩

theorem wf_encode_wrOf (p : Port) (i : BitVec 7) (v : Word) :
    (wrOf p i v).wf = true ∧ encode (wrOf p i v) = ⟨p, busWord true i, v, 0, 0⟩ := by
  obtain h | rfl | rfl | h | rfl | rfl := index_classes i
  · rw [wrOf_txSlot p v h]; exact ⟨h, rfl⟩
  · exact ⟨rfl, rfl⟩
  · exact ⟨rfl, rfl⟩
  · rw [wrOf_rxSlot p v h]; exact ⟨h, rfl⟩
  · exact ⟨rfl, rfl⟩
  · exact ⟨rfl, rfl⟩

theorem wf_encode_of_funcOf {r : Request} {k : Nat} {i : Instr} (h : funcOf r k = some i) :
    i.wf = true ∧ (encode i).opw = funcWord (BitVec.ofNat 4 k) ∧ (encode i).port = r.port := by
  unfold funcOf at h
  split at h <;> cases h <;> exact ⟨rfl, rfl, rfl⟩

/-! An operation word is made of its fields (30 R69, R70). -/

theorem eq_busWord_of_fields (w : BitVec 9) (h : opwIsFunc w = false) : busWord (opwWe w) (opwIdx w) = w := by
  revert w; decide

theorem eq_funcWord_of_fields (w : BitVec 9) (h : opwIsFunc w = true) (hz : opwZ w = 0) :
    funcWord (BitVec.ofNat 4 (opwFsel w)) = w := by
  revert w; decide

/-- Settles O3: a BUS word is its WE and its IDX, a FUNC word that decodes is its FSEL, and the operation decoded is
encoded with the same ones. -/
theorem decodedOperationReencodesToItsWord : Obligations.DecodedOperationReencodesToItsWord := by
  intro r i h
  unfold decode at h
  split at h
  · next hf =>
    split at h
    · cases h
    · next hz =>
      split at h
      · next j hj =>
        cases h
        obtain ⟨hwf, hopw, hport⟩ := wf_encode_of_funcOf hj
        exact ⟨hwf, hopw.trans (eq_funcWord_of_fields _ hf (not_not.mp hz)), hport⟩
      · cases h
  · next hf =>
    have hword := eq_busWord_of_fields r.opw (Bool.eq_false_iff.mpr hf)
    split at h <;> cases h
    · next hwe =>
      obtain ⟨hwf, henc⟩ := wf_encode_wrOf r.port (opwIdx r.opw) r.word
      rw [henc]
      exact ⟨hwf, hwe ▸ hword, rfl⟩
    · next hwe =>
      obtain ⟨hwf, henc⟩ := wf_encode_rdOf r.port (opwIdx r.opw)
      rw [henc]
      exact ⟨hwf, Bool.eq_false_iff.mpr hwe ▸ hword, rfl⟩

/-- Settles O1: each word is a BUS word of its WE and IDX, or a FUNC word of its FSEL. -/
theorem opcodeMapWordsDecode : Obligations.OpcodeMapWordsDecode :=
  ⟨decode_busWord_read .b 5 0 0 0, decode_busWord_read .a 62 0 0 0, decode_busWord_write .a 63 7 0 0,
    decode_busWord_read .a 64 0 0 0, decode_busWord_write .b 127 9 0 0, decode_funcWord (k := 2) rfl,
    decode_funcWord (k := 10) rfl⟩

/-! The accessor call of a BUS operation (30 R71). -/

theorem exec_rdOf (p : Port) (i : BitVec 7) (s : State) :
    exec (rdOf p i) s = answerRead p (memRead s p i.toNat) s := by
  obtain h | rfl | rfl | h | rfl | rfl := index_classes i
  · rw [rdOf_txSlot p h]; rfl
  · rfl
  · rfl
  · rw [rdOf_rxSlot p h]; rfl
  · rfl
  · rfl

theorem exec_wrOf (p : Port) (i : BitVec 7) (v : Word) (s : State) :
    exec (wrOf p i v) s = answerWrite p (memWrite s p i.toNat v) s := by
  obtain h | rfl | rfl | h | rfl | rfl := index_classes i
  · rw [wrOf_txSlot p v h]; rfl
  · rfl
  · rfl
  · rw [wrOf_rxSlot p v h]; rfl
  · rfl
  · rfl

theorem performRequest_of_decode {r : Request} {i : Instr} (h : decode r = .ok i) (s : State) :
    performRequest r s = exec i s := by
  rw [performRequest, h]

/-- Settles O17: the BUS word decodes to the operation of its index, whose meaning is the accessor call. -/
theorem accessorCallIsItsBusWord : Obligations.AccessorCallIsItsBusWord := by
  intro s p i v
  have hread := performRequest_of_decode (decode_busWord_read p i v 0 0) s
  have hwrite := performRequest_of_decode (decode_busWord_write p i v 0 0) s
  rw [exec_rdOf] at hread
  rw [exec_wrOf] at hwrite
  exact ⟨congrArg (byDirect p s) hread.symm, congrArg (byDirect p s) hwrite.symm⟩

/-! The step of an operation (30 R75; log entries 1 and 10). -/

/-- Settles O5: an agent that can act performs its request, which runs the operation it decodes to. -/
theorem stepRunsTheDecodedOperation : Obligations.StepRunsTheDecodedOperation := fun s r rest i hs hp hd => by
  rw [OpcodeMap.step_issue_of_notEnded hs hp, performRequest_of_decode hd]

theorem decode_of_decodeTableWord {nbits w : Nat} {i : Instr} (h : decodeTableWord nbits w = some i) :
    decode (tableRequest w) = .ok i := by
  unfold decodeTableWord at h
  split at h
  · next j hj => exact Option.some.inj h ▸ hj
  · cases h

/-- Settles O6: the placed request is the oldest input, and port A's direct agent can act. -/
theorem placedTableWordRunsNext : Obligations.PlacedTableWordRunsNext := by
  intro s nbits w i h
  refine ⟨_, stepRunsTheDecodedOperation (s.withFetchWord nbits w) (tableRequest w) s.inputs i rfl rfl
    (decode_of_decodeTableWord h), ?_⟩
  exact ⟨rfl, rfl, rfl, rfl, rfl, rfl, rfl⟩

end Sys2Proof.Proofs.EncodedForm
end

section
/-! PROOFS. What one input of a port's direct agent can do (30 R69 to R71; 60 R142): it answers a next state, by one of
six ways that leave the sequences of the port alone; and every step answers a next state. -/

namespace Sys2Proof.Proofs.DirectAgent

open Sys2Proof.Machine Sys2Proof.Safety

/-- The answers to an input of port `p`'s direct agent in `s`. -/
inductive DirectAnswer (p : Port) (s : State) : Host.Outcome State Fault Refusal → Prop where
  | stays : DirectAnswer p s (.next s)
  | delivers (w : Word) : DirectAnswer p s (.next (deliversWord s p w))
  | returns (v : Nat) : DirectAnswer p s (.next (returnsValue s p v))
  | writes {i : Nat} {v : Word} {t : State} (h : memWrite s p i v = .ok t) : DirectAnswer p s (.next t)
  | faults (f : Fault) : DirectAnswer p s (.next (raiseFault ⟨p, .direct⟩ f s))
  | refuses (r : Refusal) : DirectAnswer p s (.next (refuse r s))

section Answers

variable (p : Port) (s : State)

theorem answerRead_direct (res : Except Fault Word) : DirectAnswer p s (answerRead p res s) := by
  cases res with
  | ok w => exact .delivers w
  | error f => exact .faults f

theorem answerValue_direct (res : Except Fault Nat) : DirectAnswer p s (answerValue p res s) := by
  cases res with
  | ok v => exact .returns v
  | error f => exact .faults f

theorem answerWrite_direct (i : Nat) (v : Word) : DirectAnswer p s (answerWrite p (memWrite s p i v) s) := by
  cases h : memWrite s p i v with
  | ok t => exact .writes h
  | error st =>
    cases st with
    | fault f => exact .faults f
    | refuse r => exact .refuses r

variable {p s}

theorem exec_direct (i : Instr) : DirectAnswer (instrPort i) s (exec i s) := by
  cases i <;> simp only [exec, instrPort]
  case rdTxSlot | rdTxIr | rdTxCsr | rdRxSlot | rdRxIr | rdRxCsr => exact answerRead_direct ..
  case wrTxSlot | wrTxIr | wrTxCsr | wrRxSlot | wrRxIr | wrRxCsr => exact answerWrite_direct ..
  all_goals exact answerValue_direct ..

theorem performRequest_direct (r : Request) : DirectAnswer r.port s (performRequest r s) := by
  unfold performRequest
  split
  · next i hi => exact instrPort_decode hi ▸ exec_direct i
  · exact .faults _

theorem hostRead_direct (addr size : Nat) : DirectAnswer p s (hostRead p addr size s) := by
  unfold hostRead
  split
  · exact answerRead_direct ..
  · exact .refuses _

theorem hostWrite_direct (addr size : Nat) (v : Word) : DirectAnswer p s (hostWrite p addr size v s) := by
  unfold hostWrite
  split
  · exact answerWrite_direct ..
  · exact .refuses _

theorem byDirect_direct {o : Host.Outcome State Fault Refusal} (h : DirectAnswer p s o) :
    DirectAnswer p s (byDirect p s o) := by
  unfold byDirect
  split
  · exact .stays
  · exact h

/-- Every input of a direct agent has one of the six answers. -/
theorem perform_direct {e : Input} (h : agentOf e = some ⟨p, .direct⟩) : DirectAnswer p s (perform e s) := by
  cases e with
  | issue r => cases h; exact byDirect_direct (performRequest_direct r)
  | callRead q i => cases h; exact byDirect_direct (answerRead_direct ..)
  | callWrite q i v => cases h; exact byDirect_direct (answerWrite_direct ..)
  | hostRead q addr size => cases h; exact byDirect_direct (hostRead_direct ..)
  | hostWrite q addr size v => cases h; exact byDirect_direct (hostWrite_direct ..)
  | init | send | interrupt | caller | handler | ack | reset => cases h

theorem DirectAnswer.next {o : Host.Outcome State Fault Refusal} (h : DirectAnswer p s o) : ∃ t, o = .next t := by
  cases h <;> exact ⟨_, rfl⟩

end Answers

/-! Every step answers a next state (log entry 3). -/

theorem perform_next (e : Input) (s : State) : ∃ t, perform e s = .next t := by
  cases e with
  | issue | callRead | callWrite | hostRead | hostWrite => exact (perform_direct rfl).next
  | init | send | interrupt | caller | handler | ack | reset => exact ⟨_, rfl⟩

/-- None of the seven effects touches the inputs that follow, or C. -/
theorem effect_inputs_cap {p : Port} {s t : State} {w : Option (Nat × Word)} (h : Effect p s w t) :
    t.inputs = s.inputs ∧ t.cap = s.cap := by
  cases h <;> simp [doorbellPulse]

theorem step_inputs_cap {s t : State} (h : step s = .next t) : t.inputs = s.inputs.tail ∧ t.cap = s.cap := by
  obtain ⟨hi, rfl⟩ | ⟨e, rest, hi, ⟨-, rfl⟩ | ⟨p, w, -, -, he⟩⟩ := step_cases h
  · simp [hi]
  · simp [hi, resetEvent]
  · simpa [hi] using effect_inputs_cap he

theorem step_next (s : State) : ∃ t, step s = .next t := by
  unfold step
  split
  · exact ⟨_, rfl⟩
  · exact perform_next ..

/-- Settles O8: every input answers a next state, and no effect of a step touches the inputs that follow, or C. -/
theorem everyStepAnswersNext : Obligations.EveryStepAnswersNext := fun s =>
  (step_next s).imp fun _ h => ⟨h, step_inputs_cap h⟩

end Sys2Proof.Proofs.DirectAgent
end

section
/-! PROOFS. The machine's invariant (10 sections 3 and 8; 43; 60): one rule per state operation that says when it keeps
`MachineInv`, then one lemma per context, and the step. -/

namespace Sys2Proof.Proofs.MachineInvariant

open Sys2Proof.Machine Sys2Proof.Safety Sys2Proof.Proofs.DirectAgent

/-! The invariant by its parts. -/

theorem portOk_iff {c : Nat} {f : Option Fault} {P : PortState} : portOk c f P = true ↔
    txcsrOk P = true ∧ callerOk c P = true ∧ handlerOk c P = true ∧ endedOk f P = true := by
  simp only [portOk, Bool.and_eq_true, and_assoc]

theorem machineInv_iff {s : State} : MachineInv s ↔
    s.phys.wf = true ∧ 2 ≤ s.cap ∧ s.cap ≤ 62 ∧ ∀ p, portOk s.cap s.fault (portOf s p) = true := by
  refine and_congr_right' (and_congr_right' (and_congr_right' ⟨fun ⟨ha, hb⟩ p => ?_, fun h => ⟨h .a, h .b⟩⟩))
  cases p
  · exact ha
  · exact hb

theorem drainOk_iff {c : Nat} {d : Drain} : drainOk c d = true ↔ d.buf.length = d.n ∧ d.n ≤ c - 1 :=
  decide_eq_true_iff

section Rules

variable {s t : State} {p : Port} (h : MachineInv s)
include h

theorem phys_wf : s.phys.wf = true := h.1

theorem cap_bounds : 2 ≤ s.cap ∧ s.cap ≤ 62 := ⟨h.2.1, h.2.2.1⟩

theorem portOk_portOf (p : Port) : portOk s.cap s.fault (portOf s p) = true := (machineInv_iff.mp h).2.2.2 p

/-- What an active SEND has: INIT has completed, and its locals' invariant. -/
theorem sendOk_of_caller {x : Send} (hx : (portOf s p).caller = .send x) :
    (portOf s p).initDone = true ∧ sendOk s.cap x = true := by
  obtain ⟨-, hcaller, -, -⟩ := portOk_iff.mp (portOk_portOf h p)
  simpa [callerOk, hx] using hcaller

/-- What an active DRAIN has: INH is 1, INIT has completed, the buffer's bound, and the lock by its position. -/
theorem handlerOk_of_drain {d : Drain} (hd : (portOf s p).drain = some d) :
    (portOf s p).inh = true ∧ (portOf s p).initDone = true ∧ drainOk s.cap d = true ∧
      decide ((portOf s p).lock = .held) = holdsLock d.pos := by
  obtain ⟨-, -, hhandler, -⟩ := portOk_iff.mp (portOk_portOf h p)
  simpa [handlerOk, hd, and_assoc] using hhandler

/-- While INH is 0 no DRAIN is active and the lock is free. -/
theorem handlerOk_of_inh (hi : (portOf s p).inh = false) :
    (portOf s p).drain = none ∧ (portOf s p).lock = .free := by
  obtain ⟨-, -, hhandler, -⟩ := portOk_iff.mp (portOk_portOf h p)
  cases hd : (portOf s p).drain <;> simp_all [handlerOk]

/-! Updates that keep it. -/

theorem keeps_withPhys {m : Memory} (hm : m.wf = true) : MachineInv { s with phys := m } := ⟨hm, h.2⟩

theorem keeps_withInputs (l : List Input) : MachineInv { s with inputs := l } := h

/-- Where the memory and C stay, the invariant is that of the two ports. -/
theorem keeps_of_ports (hphys : t.phys = s.phys) (hcap : t.cap = s.cap)
    (hports : ∀ q, portOk s.cap t.fault (portOf t q) = true) : MachineInv t := by
  rw [machineInv_iff, hphys, hcap]
  exact ⟨phys_wf h, (cap_bounds h).1, (cap_bounds h).2, hports⟩

theorem keeps_setPort {P : PortState} (hP : portOk s.cap s.fault P = true) : MachineInv (setPort s p P) := by
  refine keeps_of_ports h (setPort_phys s p P) (setPort_cap s p P) fun q => ?_
  rw [setPort_fault]
  obtain rfl | rfl := eq_or_eq_other p q
  · rwa [portOf_setPort]
  · rw [portOf_setPort_other]
    exact portOk_portOf h _

theorem keeps_raiseFault (ag : Agent) (f : Fault) : MachineInv (raiseFault ag f s) := by
  refine keeps_of_ports h (raiseFault_phys ag f s) (raiseFault_cap ag f s) fun q => ?_
  obtain ⟨htx, hcaller, hhandler, -⟩ := portOk_iff.mp (portOk_portOf h q)
  have hsome (P : PortState) : endedOk (raiseFault ag f s).fault P = true := by
    rw [raiseFault_fault]
    cases s.fault <;> rfl
  by_cases hq : q = ag.port
  · subst hq
    rw [portOf_raiseFault]
    split <;> exact portOk_iff.mpr ⟨htx, hcaller, hhandler, hsome _⟩
  · rw [portOf_raiseFault_ne ag f s hq]
    exact portOk_iff.mpr ⟨htx, hcaller, hhandler, hsome _⟩

theorem keeps_refuse (r : Refusal) : MachineInv (refuse r s) := h

theorem keeps_memWrite {i : Nat} {v : Word} (hw : memWrite s p i v = .ok t) : MachineInv t := by
  obtain ⟨hi, n1, n2, rfl⟩ | ⟨-, rfl, rfl⟩ | ⟨-, rfl⟩ := memWrite_ok hw
  · exact keeps_withPhys h (writeCell_wf v (isShared_physIndex p hi n1 n2) (phys_wf h))
  · obtain ⟨-, hcaller, hhandler, hended⟩ := portOk_iff.mp (portOk_portOf h p)
    have htx := keeps_setPort h (p := p) (P := { portOf s p with txcsr := Config.doorbell })
      (portOk_iff.mpr ⟨rfl, hcaller, hhandler, hended⟩)
    exact keeps_setPort htx (portOk_portOf htx (other p))
  · exact keeps_setPort h (portOk_portOf h p)

/-- The ordinary context moves on; a SEND in it needs its own part of the invariant. -/
theorem keeps_setCaller {c : Caller} (hc : callerOk s.cap { portOf s p with caller := c } = true) :
    MachineInv (setCaller p c s) := by
  obtain ⟨htx, -, hhandler, hended⟩ := portOk_iff.mp (portOk_portOf h p)
  exact keeps_setPort h (portOk_iff.mpr ⟨htx, hc, hhandler, hended⟩)

/-- An active SEND moves on. -/
theorem keeps_setSend {x x' : Send} (hx : (portOf s p).caller = .send x) (hx' : sendOk s.cap x' = true) :
    MachineInv (setSend p x' s) :=
  keeps_setCaller h (by simp [callerOk, (sendOk_of_caller h hx).1, hx'])

theorem keeps_initDone : MachineInv (modPort s p fun P => { P with caller := .idle, initDone := true }) := by
  obtain ⟨htx, -, hhandler, hended⟩ := portOk_iff.mp (portOk_portOf h p)
  refine keeps_setPort h (portOk_iff.mpr ⟨htx, rfl, ?_, hended⟩)
  revert hhandler
  cases hd : (portOf s p).drain <;> simp +contextual [handlerOk, hd]

/-- An active DRAIN moves on, with the lock as its new position has it. -/
theorem keeps_drainLock {d d' : Drain} {l : Lock} (hd : (portOf s p).drain = some d)
    (hl : decide (l = .held) = holdsLock d'.pos) (hok : drainOk s.cap d' = true) :
    MachineInv (modPort s p fun P => { P with lock := l, drain := some d' }) := by
  obtain ⟨htx, hcaller, -, hended⟩ := portOk_iff.mp (portOk_portOf h p)
  obtain ⟨hinh, hinit, -, -⟩ := handlerOk_of_drain h hd
  exact keeps_setPort h (portOk_iff.mpr ⟨htx, hcaller, by simp [handlerOk, hinh, hinit, hok, hl], hended⟩)

theorem keeps_setDrain {d d' : Drain} (hd : (portOf s p).drain = some d) (hl : holdsLock d'.pos = holdsLock d.pos)
    (hok : drainOk s.cap d' = true) : MachineInv (setDrain p d' s) := by
  obtain ⟨-, -, -, hlock⟩ := handlerOk_of_drain h hd
  exact keeps_drainLock h hd (hlock.trans hl.symm) hok

theorem keeps_setDrain_setLock {d d' : Drain} {l : Lock} (hd : (portOf s p).drain = some d)
    (hl : decide (l = .held) = holdsLock d'.pos) (hok : drainOk s.cap d' = true) :
    MachineInv (setDrain p d' (setLock p l s)) := by
  have := keeps_drainLock h hd hl hok
  cases p <;> exact this

theorem keeps_takeInterrupt (hi : (portOf s p).inh = false) (hinit : (portOf s p).initDone = true) :
    MachineInv (takeInterrupt p s) := by
  obtain ⟨htx, hcaller, -, hended⟩ := portOk_iff.mp (portOk_portOf h p)
  obtain ⟨-, hlock⟩ := handlerOk_of_inh h hi
  refine keeps_setPort h (portOk_iff.mpr ⟨htx, hcaller, ?_, hended⟩)
  simp [handlerOk, drainOk, Drain.start, holdsLock, hinit, hlock]

theorem keeps_returnFromInterrupt {d : Drain} (hd : (portOf s p).drain = some d) (hp : d.pos = .d7) :
    MachineInv (returnFromInterrupt p s) := by
  obtain ⟨htx, hcaller, -, hended⟩ := portOk_iff.mp (portOk_portOf h p)
  obtain ⟨-, -, -, hlock⟩ := handlerOk_of_drain h hd
  refine keeps_setPort h (portOk_iff.mpr ⟨htx, hcaller, ?_, hended⟩)
  cases hl : (portOf s p).lock <;> simp_all [handlerOk, holdsLock]

theorem keeps_resetEvent : MachineInv (resetEvent s) := by
  refine machineInv_iff.mpr ⟨nil_wf, (cap_bounds h).1, (cap_bounds h).2, fun q => ?_⟩
  obtain ⟨-, -, -, hended⟩ := portOk_iff.mp (portOk_portOf h q)
  rw [Reset.portOf_resetEvent]
  exact portOk_iff.mpr ⟨rfl, rfl, rfl, hended⟩

/-! The parts of a sequence's step. -/

theorem keeps_seqRead {ag : Agent} {i : Nat} {k : Word → State} (hk : ∀ w, MachineInv (k w)) :
    MachineInv (seqRead ag i s k) := by
  unfold seqRead
  split
  · exact hk _
  · exact keeps_raiseFault h ..

theorem keeps_seqFunc {α : Type} {ag : Agent} {res : Except Fault α} {k : α → State}
    (hk : ∀ v, res = .ok v → MachineInv (k v)) : MachineInv (seqFunc ag res s k) := by
  unfold seqFunc
  split
  · exact hk _ rfl
  · exact keeps_raiseFault h ..

theorem keeps_seqWrite {ag : Agent} {i : Nat} {v : Word} {k : State → State}
    (hk : ∀ t, memWrite s ag.port i v = .ok t → MachineInv t → MachineInv (k t)) :
    MachineInv (seqWrite ag i v s k) := by
  unfold seqWrite
  split
  · next t hw => exact hk t hw (keeps_memWrite h hw)
  · next st _ =>
    cases st with
    | fault f => exact keeps_raiseFault h ..
    | refuse r => exact keeps_refuse h r

end Rules

/-- A performed write leaves C and the sequences of its port alone. -/
theorem memWrite_sequences {s t : State} {p : Port} {i : Nat} {v : Word} (hw : memWrite s p i v = .ok t) :
    t.cap = s.cap ∧ (portOf t p).drain = (portOf s p).drain ∧ (portOf t p).caller = (portOf s p).caller := by
  obtain ⟨-, -, -, rfl⟩ | ⟨-, rfl, rfl⟩ | ⟨-, rfl⟩ := memWrite_ok hw
  · simp
  · rw [portOf_modPort_ne _ _ (ne_other p)]
    simp
  · simp

section Sequences

variable {s : State} {p : Port} (h : MachineInv s)
include h

theorem keeps_seqWrite_setDrain {c : Ctx} {i : Nat} {v : Word} {d d' : Drain} (hd : (portOf s p).drain = some d)
    (hl : holdsLock d'.pos = holdsLock d.pos) (hok : drainOk s.cap d' = true) :
    MachineInv (seqWrite ⟨p, c⟩ i v s fun t => setDrain p d' t) :=
  keeps_seqWrite h fun _ hw ht => by
    obtain ⟨hcap, hdrain, -⟩ := memWrite_sequences hw
    exact keeps_setDrain ht (hdrain.trans hd) hl (hcap ▸ hok)

theorem keeps_seqWrite_setSend {c : Ctx} {i : Nat} {v : Word} {x x' : Send} (hx : (portOf s p).caller = .send x)
    (hok : sendOk s.cap x' = true) : MachineInv (seqWrite ⟨p, c⟩ i v s fun t => setSend p x' t) :=
  keeps_seqWrite h fun _ hw ht => by
    obtain ⟨hcap, -, hcaller⟩ := memWrite_sequences hw
    exact keeps_setSend ht (hcaller.trans hx) (hcap ▸ hok)

/-- DRAIN: only D1 and D6 change the lock, and only D4 the buffer, after its check of the bound. -/
theorem drainStep_keeps {d : Drain} (hd : (portOf s p).drain = some d) : MachineInv (drainStep p d s) := by
  obtain ⟨-, -, hok, -⟩ := handlerOk_of_drain h hd
  cases hp : d.pos <;> simp only [drainStep, hp]
  case d1 =>
    unfold drainD1
    split
    · exact h
    · exact keeps_setDrain_setLock h hd rfl hok
  case d2Read => exact keeps_seqRead h fun _ => keeps_setDrain h hd (by rw [hp]; rfl) hok
  case d2Write => exact keeps_seqFunc h fun _ _ => keeps_seqWrite_setDrain h hd (by rw [hp]; rfl) hok
  case d3Rx => exact keeps_seqRead h fun _ => keeps_setDrain h hd (by rw [hp]; rfl) hok
  case d3Tx => exact keeps_seqRead h fun _ => keeps_setDrain h hd (by rw [hp]; rfl) (drainOk_iff.mpr (by simp))
  case d4 =>
    unfold drainD4
    split
    · exact keeps_setDrain h hd (by rw [hp]; rfl) hok
    · split
      · exact keeps_raiseFault h ..
      · next hn =>
        obtain ⟨hlen, hle⟩ := drainOk_iff.mp hok
        rw [drainMax] at hn
        refine keeps_seqRead h fun _ => keeps_setDrain h hd (by rw [hp]; rfl) (drainOk_iff.mpr ⟨?_, ?_⟩)
        · simp [hlen]
        · exact Nat.lt_of_le_of_ne hle hn
  case d4Adv => exact keeps_seqFunc h fun _ _ => keeps_setDrain h hd (by rw [hp]; rfl) hok
  case d5Read => exact keeps_seqRead h fun _ => keeps_setDrain h hd (by rw [hp]; rfl) hok
  case d5Write => exact keeps_seqFunc h fun _ _ => keeps_seqWrite_setDrain h hd (by rw [hp]; rfl) hok
  case d6 => exact keeps_setDrain_setLock h hd rfl hok
  case d7 => exact h

theorem handlerStep_keeps (p : Port) : MachineInv (handlerStep p s) := by
  unfold handlerStep
  split
  · exact h
  · split
    · next d hd => exact drainStep_keeps h hd
    · exact h

end Sequences

/-! SEND's part of the invariant, label by label. -/

/-- USED below C answers indices that are below C. -/
theorem lt_of_used_ok {c head tail u : Nat} (h : used c head tail = .ok u) : head < c ∧ tail < c := by
  by_contra hge
  rw [PointerArithmetic.used_of_ge (by omega)] at h
  cases h

theorem lt_of_adv_ok {c i j : Nat} (h : adv c i = .ok j) : j < c := by
  by_cases hi : i < c
  · rw [adv_of_lt hi] at h
    cases h
    exact Nat.mod_lt _ (by omega)
  · rw [PointerArithmetic.adv_of_ge (by omega)] at h
    cases h

/-- SEND: what each label asks of its locals is what the label before it has left. -/
theorem sendStep_keeps {s : State} {p : Port} (h : MachineInv s) {x : Send} (hx : (portOf s p).caller = .send x) :
    MachineInv (sendStep p x s) := by
  obtain ⟨-, hok⟩ := sendOk_of_caller h hx
  cases hp : x.pos <;> simp only [sendStep, hp] <;>
    simp only [sendOk, hp, decide_eq_true_eq] at hok
  case s0 =>
    unfold sendS0
    split
    · exact keeps_setCaller h rfl
    · next w ws hw => exact keeps_setSend h hx (by simp [sendOk, hw])
  case saTx => exact keeps_seqRead h fun _ => keeps_setSend h hx (by simp [sendOk, hok])
  case saRx => exact keeps_seqRead h fun _ => keeps_setSend h hx (by simp [sendOk, hok])
  case sb =>
    refine keeps_seqFunc h fun u hu => keeps_setSend h hx ?_
    simp [sendOk, hok, lt_of_used_ok hu]
  case sc =>
    unfold sendSc
    split
    · exact keeps_setSend h hx (by simp [sendOk, hok])
    · exact keeps_setSend h hx (by simp only [sendOk, decide_eq_true_eq]; omega)
  case sdCount => exact keeps_setSend h hx (by simp only [sendOk, decide_eq_true_eq]; omega)
  case sdWrite =>
    unfold sendSdWrite
    split
    · split
      · exact keeps_seqWrite_setSend h hx (by simp only [sendOk, decide_eq_true_eq]; omega)
      · exact h
    · exact keeps_setSend h hx (by simp only [sendOk, decide_eq_true_eq]; omega)
  case sdAdv =>
    refine keeps_seqFunc h fun t ht => keeps_setSend h hx ?_
    have := lt_of_adv_ok ht
    simp only [sendOk, decide_eq_true_eq]
    omega
  case seRead => exact keeps_seqRead h fun _ => keeps_setSend h hx (by simp [sendOk, hok])
  case seWrite => exact keeps_seqFunc h fun _ _ => keeps_seqWrite_setSend h hx (by simp [sendOk, hok])
  case sf => exact keeps_seqWrite_setSend h hx (by simp [sendOk, hok])
  case sg =>
    unfold sendSg
    split
    · next hlt => exact keeps_setSend h hx (by simpa [sendOk] using hlt)
    · exact keeps_setCaller h rfl

section Step

variable {s t : State} {p : Port} (h : MachineInv s)
include h

theorem callerStep_keeps (p : Port) : MachineInv (callerStep p s) := by
  unfold callerStep
  split
  · exact h
  · split
    · exact h
    · exact keeps_seqFunc h fun _ _ => keeps_seqWrite h fun _ _ ht => keeps_initDone ht
    · next x hx => exact sendStep_keeps h hx

theorem startInit_keeps (p : Port) : MachineInv (startInit p s) := by
  unfold startInit
  dsimp only
  split
  · exact h
  · next hno =>
    split
    · exact keeps_setCaller h (by simp_all [callerOk])
    · exact h
    · exact h

theorem startSend_keeps (p : Port) (words : List Word) : MachineInv (startSend p words s) := by
  unfold startSend
  dsimp only
  split
  · exact h
  · split
    · exact keeps_refuse h _
    · exact h
    · split
      · next hyes => exact keeps_setCaller h (by simp_all [callerOk, sendOk, Send.start])
      · exact h

theorem deliver_keeps (p : Port) : MachineInv (deliver p s) := by
  unfold deliver
  split
  · next hmay =>
    simp only [mayDeliver, mayDeliverWith, Bool.and_eq_true, Bool.not_eq_true'] at hmay
    obtain ⟨⟨hinh, hinit⟩, -⟩ := hmay
    exact keeps_takeInterrupt h hinh hinit
  · exact h

theorem acknowledge_keeps (p : Port) (status : Word) : MachineInv (acknowledge p status s) := by
  unfold acknowledge
  split
  · exact h
  · split
    · next d hd =>
      split
      · next hp =>
        unfold drainD7
        split
        · exact keeps_raiseFault h ..
        · exact keeps_returnFromInterrupt h hd hp
      · exact h
    · exact h

/-- The direct agent's answers touch no sequence. -/
theorem directAnswer_keeps {o : Host.Outcome State Fault Refusal} (ho : DirectAnswer p s o) (ht : o = .next t) :
    MachineInv t := by
  cases ho <;> cases ht
  case stays => exact h
  case delivers w => exact keeps_setPort h (portOk_portOf h p)
  case returns v => exact keeps_setPort h (portOk_portOf h p)
  case writes hw => exact keeps_memWrite h hw
  case faults f => exact keeps_raiseFault h ..
  case refuses r => exact keeps_refuse h r

theorem perform_keeps {e : Input} (ht : perform e s = .next t) : MachineInv t := by
  cases e with
  | issue | callRead | callWrite | hostRead | hostWrite => exact directAnswer_keeps h (perform_direct rfl) ht
  | init p => cases ht; exact startInit_keeps h p
  | send p words => cases ht; exact startSend_keeps h p words
  | interrupt p => cases ht; exact deliver_keeps h p
  | caller p => cases ht; exact callerStep_keeps h p
  | handler p => cases ht; exact handlerStep_keeps h p
  | ack p status => cases ht; exact acknowledge_keeps h p status
  | reset => cases ht; exact keeps_resetEvent h

end Step

/-- Settles O58: a step performs its input on the state without it. -/
theorem everyStepKeepsTheInvariant : Obligations.EveryStepKeepsTheInvariant := by
  intro s t h hst
  unfold step at hst
  split at hst
  · cases hst
    exact h
  · exact perform_keeps (keeps_withInputs h _) hst

/-- Settles O57: the parts of the invariant, each at its reset value. -/
theorem invariantHoldsAtReset : Obligations.InvariantHoldsAtReset :=
  machineInv_iff.mpr ⟨nil_wf, by decide, by decide, fun p => by cases p <;> rfl⟩

end Sys2Proof.Proofs.MachineInvariant
end

section
/-! PROOFS. The ring invariant under the discipline (10 R31, R46; 43 R125, R129): one rule per part of a sequence's step
that says where it raises no fault and keeps the info registers legal, then DRAIN, SEND and the step. -/

namespace Sys2Proof.Proofs.RingInvariant

open Sys2Proof.Machine Sys2Proof.Safety Sys2Proof.Proofs.MachineInvariant Sys2Proof.Proofs.PointerArithmetic

/-! The invariant by its parts. -/

theorem portRingOk_iff {c : Nat} {P : PortState} : portRingOk c P = true ↔
    (∀ d, P.drain = some d → drainRingOk c d = true) ∧ (∀ x, P.caller = .send x → sendRingOk c x = true) := by
  rw [portRingOk, Bool.and_eq_true]
  refine and_congr ?_ ?_
  · cases P.drain <;> simp
  · cases P.caller <;> simp

theorem ringInv_iff {s : State} : RingInv s ↔
    ∀ p, irOk s.cap (irOf s p) = true ∧ portRingOk s.cap (portOf s p) = true := by
  refine ⟨fun ⟨ha, hb, pa, pb⟩ p => ?_, fun h => ⟨(h .a).1, (h .b).1, (h .a).2, (h .b).2⟩⟩
  cases p
  · exact ⟨ha, pa⟩
  · exact ⟨hb, pb⟩

theorem irOk_iff {c : Nat} {w : Word} : irOk c w = true ↔ headGet w < c ∧ tailGet w < c ∧ w &&& rsvdMask = 0 := by
  simp only [irOk, Bool.and_eq_true, decide_eq_true_eq, and_assoc]

theorem irOf_congr {s t : State} (h : t.phys = s.phys) (p : Port) : irOf t p = irOf s p := by rw [irOf, irOf, h]

theorem view_txIr (s : State) (p : Port) : view s p Config.txIr = irOf s p := rfl

theorem view_rxIr (s : State) (p : Port) : view s p Config.rxIr = irOf s (other p) := by cases p <;> rfl

/-- `t` is a state after `s` with the ring invariant, in which nothing has faulted since `s`. -/
def KeepsRings (s t : State) : Prop := RingInv t ∧ t.cap = s.cap ∧ t.fault = s.fault

theorem KeepsRings.refl {s : State} (h : RingInv s) : KeepsRings s s := ⟨h, rfl, rfl⟩

section Updates

variable {s t : State} {p : Port} (h : KeepsRings s t)
include h

theorem KeepsRings.irOk_irOf (q : Port) : irOk s.cap (irOf t q) = true := h.2.1 ▸ (ringInv_iff.mp h.1 q).1

theorem KeepsRings.portRingOk_portOf (q : Port) : portRingOk s.cap (portOf t q) = true :=
  h.2.1 ▸ (ringInv_iff.mp h.1 q).2

theorem KeepsRings.setPort {P : PortState} (hP : portRingOk s.cap P = true) : KeepsRings s (setPort t p P) := by
  have hir := h.irOk_irOf
  have hports := h.portRingOk_portOf
  obtain ⟨-, hcap, hfault⟩ := h
  refine ⟨ringInv_iff.mpr fun q => ?_, by rwa [setPort_cap], by rwa [setPort_fault]⟩
  rw [irOf_congr (setPort_phys t p P), setPort_cap, hcap]
  refine ⟨hir q, ?_⟩
  obtain rfl | rfl := eq_or_eq_other p q
  · rwa [portOf_setPort]
  · rw [portOf_setPort_other]
    exact hports _

theorem KeepsRings.setDrain {d : Drain} (hd : drainRingOk s.cap d = true) : KeepsRings s (setDrain p d t) := by
  obtain ⟨-, hcaller⟩ := portRingOk_iff.mp (h.portRingOk_portOf p)
  exact h.setPort (portRingOk_iff.mpr ⟨fun _ e => by cases e; exact hd, hcaller⟩)

theorem KeepsRings.setLock (l : Lock) : KeepsRings s (setLock p l t) := h.setPort (h.portRingOk_portOf p)

theorem KeepsRings.setCaller {c : Caller} (hc : ∀ x, c = .send x → sendRingOk s.cap x = true) :
    KeepsRings s (setCaller p c t) := by
  obtain ⟨hdrain, -⟩ := portRingOk_iff.mp (h.portRingOk_portOf p)
  exact h.setPort (portRingOk_iff.mpr ⟨hdrain, hc⟩)

theorem KeepsRings.setSend {x : Send} (hx : sendRingOk s.cap x = true) : KeepsRings s (setSend p x t) :=
  h.setCaller fun _ e => by cases e; exact hx

/-- The port's caller is idle, and whether INIT has completed is no matter of the rings. -/
theorem KeepsRings.callerIdle (b : Bool) :
    KeepsRings s (modPort t p fun P => { P with caller := .idle, initDone := b }) := by
  obtain ⟨hdrain, -⟩ := portRingOk_iff.mp (h.portRingOk_portOf p)
  exact h.setPort (portRingOk_iff.mpr ⟨hdrain, fun _ e => nomatch e⟩)

theorem KeepsRings.takeInterrupt : KeepsRings s (takeInterrupt p t) := by
  obtain ⟨-, hcaller⟩ := portRingOk_iff.mp (h.portRingOk_portOf p)
  exact h.setPort (portRingOk_iff.mpr ⟨fun _ e => by cases e; rfl, hcaller⟩)

theorem KeepsRings.returnFromInterrupt : KeepsRings s (returnFromInterrupt p t) := by
  obtain ⟨-, hcaller⟩ := portRingOk_iff.mp (h.portRingOk_portOf p)
  exact h.setPort (portRingOk_iff.mpr ⟨(fun _ e => nomatch e), hcaller⟩)

theorem KeepsRings.withPhys {m : Memory} (hm : ∀ q, irOk s.cap (readCell m (irCell q)) = true) :
    KeepsRings s { t with phys := m } := by
  have hports := h.portRingOk_portOf
  obtain ⟨-, hcap, hfault⟩ := h
  refine ⟨ringInv_iff.mpr fun q => ?_, hcap, hfault⟩
  rw [irOf_eq, portOf_withPhys, hcap]
  exact ⟨hm q, hports q⟩

end Updates

/-! The parts of a sequence's step, where they raise no fault. -/

section Parts

variable {s : State} {p : Port} {c : Ctx}

theorem KeepsRings.seqRead {i : Nat} {k : Word → State} (hi : i < 128) (hk : KeepsRings s (k (view s p i))) :
    KeepsRings s (seqRead ⟨p, c⟩ i s k) := by
  rwa [Machine.seqRead, memRead_of_lt s p hi]

theorem KeepsRings.seqFunc {α : Type} {ag : Agent} {res : Except Fault α} {v : α} {k : α → State} (hv : res = .ok v)
    (hk : KeepsRings s (k v)) : KeepsRings s (seqFunc ag res s k) := by
  subst hv
  exact hk

variable (h : RingInv s)
include h

theorem KeepsRings.seqWrite_txIr {v : Word} {k : State → State} (hwf : s.phys.wf = true) (hv : irOk s.cap v = true)
    (hk : ∀ t, KeepsRings s t → KeepsRings s (k t)) : KeepsRings s (seqWrite ⟨p, c⟩ Config.txIr v s k) := by
  rw [seqWrite, memWrite_cell s p v (by decide) (by decide) (by decide)]
  refine hk _ ((KeepsRings.refl h).withPhys fun q => ?_)
  rw [Config.txIr, physIndex_txIr]
  by_cases hq : irCell q = irCell p
  · rwa [hq, readCell_writeCell_same _ _ _ (indicesRise_of_wf hwf)]
  · rw [readCell_writeCell_ne _ _ hq, ← irOf_eq]
    exact (KeepsRings.refl h).irOk_irOf q

theorem KeepsRings.seqWrite_slot {i : Nat} {v : Word} {k : State → State} (hi : i ≤ 61)
    (hk : ∀ t, KeepsRings s t → KeepsRings s (k t)) : KeepsRings s (seqWrite ⟨p, c⟩ (Config.txBase + i) v s k) := by
  rw [Config.txBase, Nat.zero_add, seqWrite, memWrite_cell s p v (by omega) (by omega) (by omega)]
  refine hk _ ((KeepsRings.refl h).withPhys fun q => ?_)
  rw [physIndex_txSlot p hi, readCell_writeCell_ne _ _ (sendSlotCell_ne_irCell p q hi).symm, ← irOf_eq]
  exact (KeepsRings.refl h).irOk_irOf q

theorem KeepsRings.seqWrite_rxCsr {v : Word} {k : State → State} (hk : ∀ t, KeepsRings s t → KeepsRings s (k t)) :
    KeepsRings s (seqWrite ⟨p, c⟩ Config.rxCsr v s k) :=
  hk _ ((KeepsRings.refl h).setPort ((KeepsRings.refl h).portRingOk_portOf p))

theorem KeepsRings.seqWrite_doorbell {k : State → State} (hk : ∀ t, KeepsRings s t → KeepsRings s (k t)) :
    KeepsRings s (seqWrite ⟨p, c⟩ Config.txCsr Config.doorbell s k) := by
  have htx := (KeepsRings.refl h).setPort (p := p) (P := { portOf s p with txcsr := Config.doorbell })
    ((KeepsRings.refl h).portRingOk_portOf p)
  exact hk _ (htx.setPort (htx.portRingOk_portOf (other p)))

end Parts

/-! The sequences. -/

section Sequences

variable {s : State} {p : Port} (hm : MachineInv s) (h : RingInv s)
include hm h

theorem drainStep_rings {d : Drain} (hd : (portOf s p).drain = some d) : KeepsRings s (drainStep p d s) := by
  have hs := KeepsRings.refl h
  obtain ⟨hdrain, -⟩ := portRingOk_iff.mp (hs.portRingOk_portOf p)
  obtain ⟨hhead, htail, hrsvd⟩ := irOk_iff.mp (hs.irOk_irOf p)
  obtain ⟨-, htail', -⟩ := irOk_iff.mp (hs.irOk_irOf (other p))
  obtain ⟨hc2, hc62⟩ := cap_bounds hm
  have hok := hdrain d hd
  cases hp : d.pos <;> simp only [drainStep, hp] <;>
    simp only [drainRingOk, hp, Bool.and_eq_true, decide_eq_true_eq] at hok
  case d1 =>
    unfold drainD1
    split
    · exact hs
    · exact (hs.setLock .held).setDrain rfl
  case d2Read => exact .seqRead (by decide) (hs.setDrain rfl)
  case d2Write =>
    exact .seqFunc (csrMake_of_le le_rfl d.valid.isLt) (.seqWrite_rxCsr h fun _ ht => ht.setDrain rfl)
  case d3Rx =>
    refine .seqRead (by decide) (hs.setDrain ?_)
    rw [view_rxIr]
    exact decide_eq_true htail'
  case d3Tx =>
    refine .seqRead (by decide) (hs.setDrain ?_)
    rw [view_txIr]
    have hocc := occupancy_spec hhead hok
    exact decide_eq_true ⟨hhead, hok, by dsimp only [drainMax]; omega⟩
  case d4 =>
    obtain ⟨hlt, hlt', hsum⟩ := hok
    unfold drainD4
    split
    · exact hs.setDrain (decide_eq_true hlt)
    · next hne =>
      have hpos : occupancy s.cap d.head d.tail ≠ 0 := mt (occupancy_eq_zero_iff hlt hlt').mp hne
      rw [if_neg (by omega)]
      refine .seqRead (by rw [Config.rxBase]; omega) (hs.setDrain (decide_eq_true ⟨hlt, hlt', hne, ?_⟩))
      dsimp only
      omega
  case d4Adv =>
    obtain ⟨hlt, hlt', hne, hsum⟩ := hok
    have hpos : occupancy s.cap d.head d.tail ≠ 0 := mt (occupancy_eq_zero_iff hlt hlt').mp hne
    refine .seqFunc (adv_eq_nextIndex hlt) (hs.setDrain (decide_eq_true ⟨nextIndex_lt hlt, hlt', ?_⟩))
    dsimp only
    rw [occupancy_nextIndex_head hlt hlt' (by omega)]
    omega
  case d5Read =>
    refine .seqRead (by decide) (hs.setDrain ?_)
    rw [view_txIr]
    exact Bool.and_eq_true_iff.mpr ⟨decide_eq_true hok, hs.irOk_irOf p⟩
  case d5Write =>
    obtain ⟨hlt, hr⟩ := hok
    obtain ⟨-, hrtail, hrrsvd⟩ := irOk_iff.mp hr
    have hpack := headPack_of_lt (reg := d.r) hc62 hlt
    obtain ⟨hhead', htail', hrsvd'⟩ := headPack_fields hc62 hlt hpack
    exact .seqFunc hpack (.seqWrite_txIr h (phys_wf hm)
      (irOk_iff.mpr ⟨hhead'.trans_lt hlt, htail'.trans_lt hrtail, hrsvd'.trans hrrsvd⟩) fun _ ht => ht.setDrain rfl)
  case d6 => exact (hs.setLock .free).setDrain rfl
  case d7 => exact hs

theorem sendStep_rings {x : Send} (hx : (portOf s p).caller = .send x) : KeepsRings s (sendStep p x s) := by
  have hs := KeepsRings.refl h
  obtain ⟨-, hsend⟩ := portRingOk_iff.mp (hs.portRingOk_portOf p)
  obtain ⟨-, htail, -⟩ := irOk_iff.mp (hs.irOk_irOf p)
  obtain ⟨hhead, -, -⟩ := irOk_iff.mp (hs.irOk_irOf (other p))
  obtain ⟨-, hc62⟩ := cap_bounds hm
  obtain ⟨-, hloc⟩ := sendOk_of_caller hm hx
  have hok := hsend x hx
  cases hp : x.pos <;> simp only [sendStep, hp] <;>
    simp only [sendRingOk, sendOk, hp, decide_eq_true_eq] at hok hloc
  case s0 =>
    unfold sendS0
    split
    · exact hs.setCaller fun _ e => nomatch e
    · exact hs.setSend rfl
  case saTx =>
    refine .seqRead (by decide) (hs.setSend ?_)
    rw [view_txIr]
    exact decide_eq_true htail
  case saRx =>
    refine .seqRead (by decide) (hs.setSend ?_)
    rw [view_rxIr]
    exact decide_eq_true ⟨hok, hhead⟩
  case sb =>
    obtain ⟨hlt, hlt'⟩ := hok
    exact .seqFunc (used_of_lt hlt' hlt) (hs.setSend rfl)
  case sc =>
    unfold sendSc
    split
    · exact hs.setSend rfl
    · exact hs.setSend rfl
  case sdCount => exact hs.setSend rfl
  case sdWrite =>
    obtain ⟨hlt, -, -, -⟩ := hloc
    unfold sendSdWrite
    split
    · split
      · exact .seqWrite_slot h (by omega) fun _ ht => ht.setSend rfl
      · exact hs
    · exact hs.setSend rfl
  case sdAdv =>
    obtain ⟨hlt, -, -, -⟩ := hloc
    exact .seqFunc (adv_of_lt hlt) (hs.setSend rfl)
  case seRead => exact .seqRead (by decide) (hs.setSend (hs.irOk_irOf p))
  case seWrite =>
    obtain ⟨hlt, -, -⟩ := hloc
    obtain ⟨hrhead, -, hrrsvd⟩ := irOk_iff.mp hok
    have hpack := tailPack_of_lt (reg := x.r) hc62 hlt
    obtain ⟨htail', hhead', hrsvd'⟩ := tailPack_fields hc62 hlt hpack
    exact .seqFunc hpack (.seqWrite_txIr h (phys_wf hm)
      (irOk_iff.mpr ⟨hhead'.trans_lt hrhead, htail'.trans_lt hlt, hrsvd'.trans hrrsvd⟩) fun _ ht => ht.setSend rfl)
  case sf => exact .seqWrite_doorbell h fun _ ht => ht.setSend rfl
  case sg =>
    unfold sendSg
    split
    · exact hs.setSend rfl
    · exact hs.setCaller fun _ e => nomatch e

theorem handlerStep_rings (p : Port) : KeepsRings s (handlerStep p s) := by
  unfold handlerStep
  split
  · exact .refl h
  · split
    · next d hd => exact drainStep_rings hm h hd
    · exact .refl h

theorem callerStep_rings (p : Port) : KeepsRings s (callerStep p s) := by
  unfold callerStep
  split
  · exact .refl h
  · split
    · exact .refl h
    · exact .seqFunc (csrMake_of_le le_rfl (by decide)) (.seqWrite_rxCsr h fun _ ht => ht.callerIdle true)
    · next x hx => exact sendStep_rings hm h hx

end Sequences

/-! The platform's inputs. -/

section Platform

variable {s : State} (h : RingInv s)
include h

theorem startInit_rings (p : Port) : KeepsRings s (startInit p s) := by
  unfold startInit
  dsimp only
  split
  · exact .refl h
  · split
    · exact (KeepsRings.refl h).setCaller fun _ e => nomatch e
    · exact .refl h
    · exact .refl h

theorem startSend_rings (p : Port) (words : List Word) : KeepsRings s (startSend p words s) := by
  unfold startSend
  dsimp only
  split
  · exact .refl h
  · split
    · exact ⟨h, rfl, rfl⟩
    · exact .refl h
    · split
      · exact (KeepsRings.refl h).setSend rfl
      · exact .refl h

theorem deliver_rings (p : Port) : KeepsRings s (deliver p s) := by
  unfold deliver
  split
  · exact (KeepsRings.refl h).takeInterrupt
  · exact .refl h

/-- The acknowledgement of status 0 is the only one the discipline has. -/
theorem acknowledge_rings (p : Port) : KeepsRings s (acknowledge p 0 s) := by
  unfold acknowledge
  split
  · exact .refl h
  · split
    · split
      · exact (KeepsRings.refl h).returnFromInterrupt
      · exact .refl h
    · exact .refl h

end Platform

theorem ringInv_of_reset {s : State} (hc : 0 < s.cap) (hphys : s.phys = [])
    (hports : ∀ p, (portOf s p).drain = none ∧ (portOf s p).caller = .idle) : RingInv s := by
  refine ringInv_iff.mpr fun p => ⟨?_, portRingOk_iff.mpr ?_⟩
  · have hzero : irOf s p = 0 := by rw [irOf, hphys]; rfl
    rw [irOk_iff, hzero]
    exact ⟨hc, hc, rfl⟩
  · obtain ⟨hdrain, hcaller⟩ := hports p
    simp [hdrain, hcaller]

/-- Settles O59: at reset every cell is 0 and no sequence is active. -/
theorem ringInvariantHoldsAtReset : Obligations.RingInvariantHoldsAtReset :=
  ringInv_of_reset (by decide) rfl fun p => by cases p <;> exact ⟨rfl, rfl⟩

theorem resetEvent_rings {s : State} (hm : MachineInv s) : KeepsRings s (resetEvent s) := by
  refine ⟨ringInv_of_reset (Nat.lt_of_lt_of_le (by decide) (cap_bounds hm).1) rfl fun p => ?_, rfl, rfl⟩
  rw [Reset.portOf_resetEvent]
  exact ⟨rfl, rfl⟩

theorem perform_rings {s t : State} {e : Input} (hm : MachineInv s) (h : RingInv s) (he : disciplined e = true)
    (ht : perform e s = .next t) : KeepsRings s t := by
  cases e with
  | issue | callRead | callWrite | hostRead | hostWrite => cases he
  | init p => cases ht; exact startInit_rings h p
  | send p words => cases ht; exact startSend_rings h p words
  | interrupt p => cases ht; exact deliver_rings h p
  | caller p => cases ht; exact callerStep_rings hm h p
  | handler p => cases ht; exact handlerStep_rings hm h p
  | ack p status =>
    cases ht
    obtain rfl : status = 0 := of_decide_eq_true he
    exact acknowledge_rings h p
  | reset => cases ht; exact resetEvent_rings hm

/-- Settles O60: a step performs its input on the state without it, which has both invariants too. -/
theorem disciplinedStepsKeepTheRingsAndNeverFault : Obligations.DisciplinedStepsKeepTheRingsAndNeverFault := by
  intro s t e rest hm h hs he hst
  rw [step, hs] at hst
  obtain ⟨hring, -, hfault⟩ := perform_rings (keeps_withInputs hm rest) (s := { s with inputs := rest }) h he hst
  exact ⟨hring, hfault⟩

end Sys2Proof.Proofs.RingInvariant
end

section
/-! PROOFS. An info register is its three fields (41 R99), and a CSR value its two: so the packs commute and undo the
gets (R102, R103), and CSR.MAKE undoes the CSR's gets (R106). -/

namespace Sys2Proof.Proofs.RegisterFields

open Sys2Proof.Machine Sys2Proof.Safety Sys2Proof.Proofs.BitfieldCodec

/-- HEAD, TAIL and RSVD determine the register (41 R99). -/
theorem eq_of_fields {w u : Word} (hh : headGet w = headGet u) (ht : tailGet w = tailGet u)
    (hr : w &&& rsvdMask = u &&& rsvdMask) : w = u := by
  have hrsvd := congrArg BitVec.toNat hr
  rw [headGet_eq, headGet_eq] at hh
  rw [tailGet_eq, tailGet_eq] at ht
  rw [rsvd_toNat, rsvd_toNat] at hrsvd
  exact BitVec.eq_of_toNat_eq (by omega)

theorem lt_of_headPack_ok {c h : Nat} {w v : Word} (hv : headPack c w h = .ok v) : h < c := by
  by_contra hge
  rw [headPack_of_ge w (by omega)] at hv
  cases hv

theorem lt_of_tailPack_ok {c t : Nat} {w v : Word} (hv : tailPack c w t = .ok v) : t < c := by
  by_contra hge
  rw [tailPack_of_ge w (by omega)] at hv
  cases hv

/-- Settles O23: each pack sets one field and keeps the other two, and a register is its fields. -/
theorem packsCommuteAndIsolateBytes : Obligations.PacksCommuteAndIsolateBytes := by
  intro c w w1 w2 u1 u2 h t hc hw1 hw2 hu1 hu2
  have hh := lt_of_headPack_ok hw1
  have ht := lt_of_tailPack_ok hw2
  obtain ⟨w1head, w1tail, w1rsvd⟩ := headPack_fields hc hh hw1
  obtain ⟨w2tail, w2head, w2rsvd⟩ := tailPack_fields hc ht hw2
  obtain ⟨u1tail, u1head, u1rsvd⟩ := tailPack_fields hc ht hu1
  obtain ⟨u2head, u2tail, u2rsvd⟩ := headPack_fields hc hh hu2
  have w2rsvd' := w2rsvd.trans w1rsvd
  refine ⟨eq_of_fields ?_ ?_ ?_, w1head, w1tail, u1tail, u1head, w2rsvd', fun hown => ?_, fun hown => ?_⟩
  · rw [w2head, w1head, u2head]
  · rw [w2tail, u2tail, u1tail]
  · rw [w2rsvd', u2rsvd, u1rsvd]
  · exact eq_of_fields (w1head.trans hown) w1tail w1rsvd
  · exact eq_of_fields u1head (u1tail.trans hown) u1rsvd

theorem csrMake_of_en_gt {en : Nat} (valid : Nat) (h : 1 < en) : csrMake en valid = .error (.fieldRange .csr en) :=
  if_pos h

theorem csrMake_of_valid_ge {en valid : Nat} (he : en ≤ 1) (hv : 2 ^ 63 ≤ valid) :
    csrMake en valid = .error (.fieldRange .csr valid) := by
  rw [csrMake, if_neg (by omega), if_pos hv]

/-- Settles O25: inputs that fit make a 64-bit number; else the first that does not fit is the fault. -/
theorem csrMakeEncodesOrFaults : Obligations.CsrMakeEncodesOrFaults := by
  refine fun s p en valid => ⟨rfl, fun ⟨he, hv⟩ => ?_, fun he => ?_, fun ⟨he, hv⟩ => ?_⟩
  · refine answerValue_word_ok (csrMake_of_le he hv) ?_
    rw [BitVec.toNat_ofNat, Nat.mod_eq_of_lt (by omega)]
  · exact answerValue_word_error (csrMake_of_en_gt valid he)
  · exact answerValue_word_error (csrMake_of_valid_ge he hv)

/-- Settles O26: a number is its quotient by 2^63 times 2^63 plus its remainder. -/
theorem csrMakeUndoesItsFields : Obligations.CsrMakeUndoesItsFields := by
  intro c
  have hlt := c.isLt
  rw [csrEn_eq, csrValid_eq, csrMake_of_le (by omega) (Nat.mod_lt _ (by decide)), Nat.div_add_mod',
    BitVec.ofNat_toNat, BitVec.setWidth_eq]

end Sys2Proof.Proofs.RegisterFields
end

section
/-! PROOFS. Reads after writes (20 R60; 10 R23, R24): what a port's view depends on, and what a performed write leaves
of it. -/

namespace Sys2Proof.Proofs.Consistency

open Sys2Proof.Machine

/-- A view depends on the port's own register at a CSR's index, and on one cell at every other. -/
theorem view_congr {s t : State} {p : Port} {i : Nat} (htx : i = 63 → (portOf t p).txcsr = (portOf s p).txcsr)
    (hrx : i = 127 → (portOf t p).rxcsr = (portOf s p).rxcsr)
    (hcell : i ≠ 63 → i ≠ 127 → readCell t.phys (physIndex p i) = readCell s.phys (physIndex p i)) :
    view t p i = view s p i := by
  by_cases h1 : i = 63
  · subst h1
    exact htx rfl
  · by_cases h2 : i = 127
    · subst h2
      exact hrx rfl
    · rw [view_cell t p h1 h2, view_cell s p h1 h2, hcell h1 h2]

theorem memRead_congr {s t : State} {p : Port} {i : Nat} (h : view t p i = view s p i) :
    memRead t p i = memRead s p i := by
  rw [memRead, memRead, h]

/-- The port mapping is one to one. -/
theorem physIndex_inj {p : Port} {i j : Nat} (h : physIndex p i = physIndex p j) : i = j := by
  cases p
  · exact h
  · exact Nat.xor_left_inj.mp h

section Writes

variable {s t : State} {p : Port} {i : Nat} {v : Word} (hwf : s.phys.wf = true) (hw : memWrite s p i v = .ok t)

include hwf hw in
theorem memRead_memWrite_same : memRead t p i = .ok v := by
  obtain ⟨hi, h1, h2, rfl⟩ | ⟨rfl, rfl, rfl⟩ | ⟨rfl, rfl⟩ := memWrite_ok hw
  · rw [memRead_of_lt _ p hi, view_cell _ p h1 h2]
    exact congrArg _ (readCell_writeCell_same _ _ v (indicesRise_of_wf hwf))
  · rw [memRead_of_lt _ p (by decide), view_txCsr, portOf_modPort_ne _ _ (ne_other p), portOf_modPort]
  · rw [memRead_of_lt _ p (by decide), view_rxCsr, portOf_modPort]

include hw in
theorem memRead_memWrite_ne {j : Nat} (hj : j ≠ i) : memRead t p j = memRead s p j := by
  obtain ⟨hi, h1, h2, rfl⟩ | ⟨rfl, rfl, rfl⟩ | ⟨rfl, rfl⟩ := memWrite_ok hw
  · exact memRead_congr (view_congr (fun _ => by rw [portOf_withPhys]) (fun _ => by rw [portOf_withPhys])
      fun _ _ => readCell_writeCell_ne _ v (mt physIndex_inj hj))
  · refine memRead_congr (view_congr (fun h => absurd h hj) (fun _ => ?_) fun _ _ => ?_)
    · rw [portOf_modPort_ne _ _ (ne_other p), portOf_modPort]
    · rw [modPort_phys, modPort_phys]
  · refine memRead_congr (view_congr (fun _ => ?_) (fun h => absurd h hj) fun _ _ => ?_)
    · rw [portOf_modPort]
    · rw [modPort_phys]

end Writes

/-- Settles O20: a write reads back at its index, and leaves what every other index depends on. -/
theorem readReturnsTheLatestWrite : Obligations.ReadReturnsTheLatestWrite := fun _ _ _ _ _ hwf hw =>
  ⟨memRead_memWrite_same hwf hw, fun _ hj => memRead_memWrite_ne hw hj⟩

/-- The index with bit 6 inverted is a window index, and no CSR's where the index is none. -/
theorem xor_64_index {i : Nat} (hi : i < 128) (h1 : i ≠ 63) (h2 : i ≠ 127) :
    i ^^^ 64 < 128 ∧ i ^^^ 64 ≠ 63 ∧ i ^^^ 64 ≠ 127 := by
  obtain h | h := Nat.lt_or_ge i 64
  · rw [xor_64_of_lt h]
    omega
  · rw [xor_64_of_ge h hi]
    omega

/-- Settles O19: the two ports reach one cell there. -/
theorem peerReadsTheMirroredIndex : Obligations.PeerReadsTheMirroredIndex := by
  intro s t p i v hwf hi h1 h2 hw
  obtain ⟨hi', h1', h2'⟩ := xor_64_index hi h1 h2
  have hsame := memRead_memWrite_same hwf hw
  rw [memRead_of_lt _ _ hi, view_cell _ _ h1 h2] at hsame
  rwa [memRead_of_lt _ _ hi', view_cell _ _ h1' h2', physIndex_other]

/-- Settles O42: a view depends on its own port's registers only. -/
theorem otherPortsRegistersAreUnreadable : Obligations.OtherPortsRegistersAreUnreadable := by
  intro s p Q i
  have hport : portOf (setPort s (other p) Q) p = portOf s p := portOf_setPort_ne s Q (ne_other p)
  exact memRead_congr (view_congr (fun _ => by rw [hport]) (fun _ => by rw [hport]) fun _ _ => by rw [setPort_phys])

end Sys2Proof.Proofs.Consistency
end

section
/-! PROOFS. Faults and refusals (60 R142, R143, R147; 10 R40): raising a fault, the actions of an ended agent, and what
a step that faults or refuses leaves alone. -/

namespace Sys2Proof.Proofs.FaultsAndRefusals

open Sys2Proof.Machine Sys2Proof.Safety

/-- The first value stands. -/
theorem orElse_some_eq_ite {α : Type} (o : Option α) (a : α) :
    (o.orElse fun _ => some a) = if o.isSome then o else some a := by
  cases o <;> rfl

/-- Settles O31: the record by its first fault, the ended bit by the agent's context. -/
theorem raisingAFaultEndsOnlyItsAgent : Obligations.RaisingAFaultEndsOnlyItsAgent := by
  intro s p c f
  refine ⟨portOf (raiseFault ⟨p, c⟩ f s) p, ?_, ?_⟩
  · rw [← orElse_some_eq_ite, raiseFault, endAgent, portOf_modPort]
    rfl
  · have hport := portOf_raiseFault ⟨p, c⟩ f s
    cases c <;> simp_all [ended]

section EndedAgent

variable {s : State} {e : Input}

theorem byDirect_of_ended {p : Port} {o : Host.Outcome State Fault Refusal} (h : (portOf s p).directEnded = true) :
    byDirect p s o = .next s := if_pos h

/-- An action of an agent that has ended does nothing (log entry 3). -/
theorem perform_of_ended {ag : Agent} (ha : agentOf e = some ag) (h : ended s ag = true) : perform e s = .next s := by
  cases e <;> cases ha <;> simp only [ended] at h
  case issue | callRead | callWrite | hostRead | hostWrite => exact byDirect_of_ended h
  case init p => simp [perform, startInit, h]
  case send p words => simp [perform, startSend, h]
  case caller p => simp [perform, callerStep, h]
  case handler p => simp [perform, handlerStep, h]
  case ack p status => simp [perform, acknowledge, h]

end EndedAgent

/-- Settles O33: a step performs its input, and taking it off the list ends no agent's end. -/
theorem faultedAgentTakesNoFurtherStep : Obligations.FaultedAgentTakesNoFurtherStep := by
  intro s e rest ag hs ha h
  rw [step, hs]
  exact perform_of_ended ha (by simpa [ended] using h)

theorem sameBlock_raiseFault (ag : Agent) (f : Fault) (s : State) : SameBlock s (raiseFault ag f s) := by
  refine ⟨raiseFault_phys ag f s, fun q => ?_⟩
  by_cases hq : q = ag.port
  · subst hq
    rw [portOf_raiseFault]
    split <;> exact ⟨rfl, rfl, rfl⟩
  · rw [portOf_raiseFault_ne ag f s hq]
    exact ⟨rfl, rfl, rfl⟩

theorem sameBlock_refuse (r : Refusal) (s : State) : SameBlock s (refuse r s) :=
  ⟨rfl, fun q => by rw [portOf_refuse]; exact ⟨rfl, rfl, rfl⟩⟩

/-- Of the seven effects the two that write the record or the mark leave the block alone. -/
theorem effect_sameBlock_or_sameMarks {p : Port} {s t : State} {w : Option (Nat × Word)} (h : Effect p s w t) :
    SameBlock s t ∨ t.fault = s.fault ∧ t.refusal = s.refusal := by
  cases h with
  | faults c f _ => exact .inl (sameBlock_raiseFault _ f s)
  | refuses r _ => exact .inl (sameBlock_refuse r s)
  | stays => exact .inr ⟨rfl, rfl⟩
  | localTo | stores | arms => exact .inr ⟨by simp, by simp⟩
  | rings => exact .inr ⟨by simp [doorbellPulse], by simp [doorbellPulse]⟩

theorem step_sameBlock_or_sameMarks {s t : State} (h : step s = .next t) :
    SameBlock s t ∨ t.fault = s.fault ∧ t.refusal = s.refusal := by
  obtain ⟨-, rfl⟩ | ⟨e, rest, -, ⟨-, rfl⟩ | ⟨p, w, -, -, he⟩⟩ := step_cases h
  · exact .inr ⟨rfl, rfl⟩
  · exact .inr ⟨rfl, rfl⟩
  · simpa [SameBlock] using effect_sameBlock_or_sameMarks he

/-- Settles O34: a step that sets the record or the mark is none that keeps both. -/
theorem faultsAndRefusalsChangeNoBlockState : Obligations.FaultsAndRefusalsChangeNoBlockState := by
  intro s t h hset
  refine (step_sameBlock_or_sameMarks h).resolve_right fun ⟨hf, hr⟩ => ?_
  obtain ⟨hnone, hsome⟩ | ⟨hnone, hsome⟩ := hset
  · exact hsome (hf.trans hnone)
  · exact hsome (hr.trans hnone)

end Sys2Proof.Proofs.FaultsAndRefusals
end

section
/-! PROOFS. Delivery, acknowledgement and return (60 R158 to R161; 43 R128). -/

namespace Sys2Proof.Proofs.Delivery

open Sys2Proof.Machine Sys2Proof.Safety

theorem step_interrupt {s : State} {p : Port} {rest : List Input} (hs : s.inputs = .interrupt p :: rest) :
    step s = .next (deliver p { s with inputs := rest }) := by
  rw [step, hs]
  rfl

/-- R158's conditions. -/
theorem mayDeliver_eq_true_iff {s : State} {p : Port} : mayDeliver s p = true ↔
    (portOf s p).inh = false ∧ (portOf s p).initDone = true ∧ (irq s p = true ∨ Config.spuriousDelivery = true) := by
  simp only [mayDeliver, mayDeliverWith, irq, Bool.and_eq_true, Bool.not_eq_true', Bool.or_eq_true, and_assoc]

theorem mayDeliver_withInputs (s : State) (p : Port) (l : List Input) :
    mayDeliver { s with inputs := l } p = mayDeliver s p := by
  rw [mayDeliver, mayDeliver, portOf_withInputs]

theorem deliver_of_mayDeliver {s : State} {p : Port} (h : mayDeliver s p = true) :
    deliver p s = takeInterrupt p s := if_pos h

theorem deliver_of_not_mayDeliver {s : State} {p : Port} (h : ¬ mayDeliver s p = true) : deliver p s = s := if_neg h

/-- Settles O36: the platform may deliver, and the entry is one change of the port. -/
theorem deliveryEntersTheHandler : Obligations.DeliveryEntersTheHandler := by
  intro s p rest hs hinh hinit hirq
  have hmay : mayDeliver { s with inputs := rest } p = true :=
    (mayDeliver_withInputs s p rest).trans (mayDeliver_eq_true_iff.mpr ⟨hinh, hinit, hirq⟩)
  refine ⟨takeInterrupt p { s with inputs := rest }, Drain.start, ?_, ?_, rfl, ?_, ?_⟩
  · rw [step_interrupt hs, deliver_of_mayDeliver hmay]
  · rw [takeInterrupt, portOf_modPort, portOf_withInputs]
  · rw [takeInterrupt, portOf_modPort_other, portOf_withInputs]
  · cases p <;> rfl

/-- Settles O37: the three cases are those in which the platform may not deliver. -/
theorem noDeliveryOutsideItsConditions : Obligations.NoDeliveryOutsideItsConditions := by
  intro s p rest hs hno
  rw [step_interrupt hs, deliver_of_not_mayDeliver]
  rw [mayDeliver_withInputs, mayDeliver_eq_true_iff]
  rintro ⟨hinh, hinit, hirq⟩
  obtain h | h | ⟨h, h'⟩ := hno
  · simp [hinh] at h
  · simp [hinit] at h
  · simp [h, h'] at hirq

theorem acknowledge_of_d7 {s : State} {p : Port} {status : Word} {d : Drain} (hd : (portOf s p).drain = some d)
    (hp : d.pos = .d7) (he : (portOf s p).handlerEnded = false) :
    acknowledge p status s = drainD7 p status s := by
  simp [acknowledge, he, hd, hp]

/-- Settles O38: at D7 the acknowledgement is taken, and its status decides. -/
theorem acknowledgementReturnsOrFaults : Obligations.AcknowledgementReturnsOrFaults := by
  intro s p status d hd hp he
  rw [perform, acknowledge_of_d7 hd hp he]
  refine ⟨fun hzero => ⟨returnFromInterrupt p s, ?_, ?_, ?_, ?_⟩, fun hne => ?_⟩
  · rw [drainD7, if_neg (not_not.mpr hzero)]
  · rw [returnFromInterrupt, portOf_modPort]
  · rw [returnFromInterrupt, portOf_modPort_other]
  · cases p <;> rfl
  · rw [drainD7, if_pos hne]

end Sys2Proof.Proofs.Delivery
end

section
/-! PROOFS. The registers of each port's own (10 R24 to R28; 60 R151 to R156): what each effect of a step does to the
other port and to the receive CSR and the pending latch, by the write access of the step. -/

namespace Sys2Proof.Proofs.OwnRegisters

open Sys2Proof.Machine Sys2Proof.Safety

section Effects

variable {p : Port} {s t : State} {w : Option (Nat × Word)} (h : Effect p s w t)
include h

theorem effect_peer_of_rings (hw : w = some (63, Config.doorbell)) :
    portOf t (other p) = { portOf s (other p) with pend := true } := by
  cases h with
  | stays | localTo => cases hw
  | faults _ _ hf => exact absurd (hf _ _ hw) (by decide)
  | refuses _ hr => exact absurd rfl (hr _ _ hw).2
  | stores _ _ _ _ n1 => cases hw; exact absurd rfl n1
  | rings P => rw [doorbellPulse, portOf_modPort, portOf_setPort_other]
  | arms => cases hw

theorem effect_peer_of_not_rings (hw : w ≠ some (63, Config.doorbell)) : portOf t (other p) = portOf s (other p) := by
  cases h with
  | stays => rfl
  | faults c f => exact portOf_raiseFault_ne ⟨p, c⟩ f s (other_ne p)
  | refuses r => exact portOf_refuse r s _
  | stores => rw [portOf_setPort_other, portOf_withPhys]
  | rings => exact absurd rfl hw
  | localTo | arms => rw [portOf_setPort_other]

theorem effect_own_of_arms {v : Word} (hw : w = some (127, v)) :
    (portOf t p).pend = false ∧ (portOf t p).rxcsr = v := by
  cases h with
  | stays | localTo => cases hw
  | faults _ _ hf => exact absurd (hf _ _ hw) (by decide)
  | refuses _ hr => exact absurd (hr _ _ hw).1 (by decide)
  | stores _ _ _ _ _ n2 => cases hw; exact absurd rfl n2
  | rings => cases hw
  | arms _ P _ h2 h3 =>
    cases hw
    rw [portOf_setPort]
    exact ⟨h3, h2⟩

theorem effect_own_of_not_arms (hw : ∀ v, w ≠ some (127, v)) :
    (portOf t p).pend = (portOf s p).pend ∧ (portOf t p).rxcsr = (portOf s p).rxcsr := by
  cases h with
  | stays => exact ⟨rfl, rfl⟩
  | faults c f =>
    obtain ⟨-, hports⟩ := FaultsAndRefusals.sameBlock_raiseFault ⟨p, c⟩ f s
    exact ⟨(hports p).2.2, (hports p).2.1⟩
  | refuses r => rw [portOf_refuse]; exact ⟨rfl, rfl⟩
  | localTo P _ h2 h3 => rw [portOf_setPort]; exact ⟨h3, h2⟩
  | stores _ _ P _ _ _ _ h2 h3 => rw [portOf_setPort]; exact ⟨h3, h2⟩
  | rings P _ h2 h3 =>
    rw [doorbellPulse, portOf_modPort_ne _ _ (ne_other p), portOf_setPort]
    exact ⟨h3, h2⟩
  | arms v => exact absurd rfl (hw v)

end Effects

/-- The effect of a step that acts for a port, on the state without its input. -/
theorem step_effect {s t : State} {e : Input} {rest : List Input} {p : Port} (hs : s.inputs = e :: rest)
    (hp : actsFor e = some p) (h : step s = .next t) :
    Effect p { s with inputs := rest } (writeAccess s e) t := by
  rw [step, hs] at h
  obtain ⟨rfl, -⟩ | ⟨q, hq, he⟩ := effect_perform h
  · cases hp
  · cases hp.symm.trans hq
    rwa [writeAccess_withInputs] at he

theorem eq_reset_of_actsFor_eq_none {e : Input} (h : actsFor e = none) : e = .reset := by
  cases e with
  | reset => rfl
  | issue | callRead | callWrite | hostRead | hostWrite | init | send | interrupt | caller | handler | ack => cases h

/-- Settles O39: the peer's part of the step's effect, by whether its write rings. -/
theorem aStepReachesThePeerOnlyByDoorbell : Obligations.AStepReachesThePeerOnlyByDoorbell := by
  intro s t e rest p hs hp h
  have he := step_effect hs hp h
  refine ⟨fun ⟨_, hw⟩ => ?_, fun hno => ?_⟩
  · simpa using effect_peer_of_rings he hw
  · simpa using effect_peer_of_not_rings he fun hw => hno ⟨hp, hw⟩

/-- Settles O40: a step is the reset event, or it acts for `p` and may write RXCSR[p], or it acts for the other port and
may ring. -/
theorem pendMovesOnlyByDoorbellAndRearm : Obligations.PendMovesOnlyByDoorbellAndRearm := by
  intro s t e rest p hs h
  refine ⟨fun hr => ?_, fun v ha => ?_, fun hreset => ?_, fun hr ha hreset => ?_⟩
  · have hpeer := effect_peer_of_rings (step_effect hs hr.1 h) hr.2
    rw [other_other, portOf_withInputs] at hpeer
    rw [hpeer]
    exact ⟨rfl, rfl⟩
  · exact effect_own_of_arms (step_effect hs ha.1 h) ha.2
  · subst hreset
    cases (Reset.step_reset hs).symm.trans h
    rw [Reset.portOf_resetEvent]
    exact ⟨rfl, rfl⟩
  · obtain ⟨q, hq⟩ := Option.ne_none_iff_exists'.mp (mt eq_reset_of_actsFor_eq_none hreset)
    obtain rfl | rfl := eq_or_eq_other p q
    · simpa using effect_own_of_not_arms (step_effect hs hq h) fun v hw => ha v ⟨hq, hw⟩
    · have hpeer := effect_peer_of_not_rings (step_effect hs hq h) fun hw => hr ⟨hq, hw⟩
      rw [other_other, portOf_withInputs] at hpeer
      rw [hpeer]
      exact ⟨rfl, rfl⟩

/-! The two orders of a doorbell and a re-arm (60 R152, R156). -/

section Orders

variable {s t : State} {p : Port} {i : Nat} {v : Word}

/-- A performed write leaves the inputs that follow and both direct agents alone. -/
theorem memWrite_inputs_directEnded {q : Port} (hw : memWrite s q i v = .ok t) :
    t.inputs = s.inputs ∧ (portOf t p).directEnded = (portOf s p).directEnded := by
  obtain ⟨-, -, -, rfl⟩ | ⟨-, rfl, rfl⟩ | ⟨-, rfl⟩ := memWrite_ok hw
  · exact ⟨rfl, congrArg _ (portOf_withPhys s _ p)⟩
  · cases p <;> cases q <;> exact ⟨rfl, rfl⟩
  · cases p <;> cases q <;> exact ⟨rfl, rfl⟩

/-- A run whose oldest input is an accessor call that writes. -/
theorem run_callWrite {rest : List Input} {k : Nat} (hs : s.inputs = .callWrite p i v :: rest)
    (hp : (portOf s p).directEnded = false) (hw : memWrite { s with inputs := rest } p i v = .ok t) :
    Host.Core.run core (k + 1) s = Host.Core.run core k t := by
  refine run_cons hs ?_
  rw [perform, HostBytes.byDirect_of_notEnded (by rwa [portOf_withInputs]), hw]
  rfl

/-- Two accessor calls that write, of agents that can act. -/
theorem run_callWrite_callWrite {q : Port} {j : Nat} {u : Word} {t' : State} {rest : List Input}
    (hs : s.inputs = .callWrite q j u :: .callWrite p i v :: rest) (hq : (portOf s q).directEnded = false)
    (hp : (portOf s p).directEnded = false)
    (hw : memWrite { s with inputs := .callWrite p i v :: rest } q j u = .ok t)
    (hw' : memWrite { t with inputs := rest } p i v = .ok t') : Host.Core.run core 2 s = .next t' := by
  obtain ⟨hinputs, hended⟩ := memWrite_inputs_directEnded (p := p) hw
  rw [run_callWrite hs hq hw, run_callWrite hinputs (hended.trans (by rwa [portOf_withInputs])) hw']
  rfl

/-- A pending doorbell on a port whose RXCSR is all ones raises the interrupt, whether or not VALID gates it
(60 R155). -/
theorem irq_of_allOnes (hv : (portOf s p).rxcsr = 0xFFFFFFFFFFFFFFFF) (hp : (portOf s p).pend = true) :
    irq s p = true := by
  refine (InterruptOutput.irqWith_eq_true_iff _ _).mpr ?_
  rw [hv]
  exact ⟨by decide, hp, .inr (by decide)⟩

end Orders

/-- Settles O41: the second of the two writes decides PEND, and only the re-arm RXCSR. -/
theorem doorbellAndRearmTakeTheirOrder : Obligations.DoorbellAndRearmTakeTheirOrder := by
  refine fun s p v rest hp hq => ⟨fun hs => ?rearmLast, fun hs => ?doorbellLast⟩
  case rearmLast =>
    refine ⟨_, run_callWrite_callWrite hs hq hp (memWrite_doorbell _ _) (memWrite_rxCsr _ p v), ?_⟩
    have hpend {u : State} : (portOf (modPort u p fun P => { P with rxcsr := v, pend := false }) p).pend = false := by
      rw [portOf_modPort]
    exact ⟨by rw [portOf_modPort], hpend, Reset.irq_eq_false_of_pend hpend⟩
  case doorbellLast =>
    refine ⟨_, run_callWrite_callWrite hs hp hq (memWrite_rxCsr _ p v) (memWrite_doorbell _ _), ?_⟩
    have hport {u : State} {g : PortState → PortState} :
        portOf (modPort (modPort { modPort u p fun P => { P with rxcsr := v, pend := false } with inputs := rest }
          (other p) g) (other (other p)) fun P => { P with pend := true }) p =
        { portOf u p with rxcsr := v, pend := true } := by
      rw [other_other, portOf_modPort, portOf_modPort_ne _ _ (ne_other p), portOf_withInputs, portOf_modPort]
    exact ⟨by rw [hport], by rw [hport], fun hv => irq_of_allOnes (by rw [hport]; exact hv) (by rw [hport])⟩

end Sys2Proof.Proofs.OwnRegisters
end

section
/-! PROOFS. Single steps and short runs of the reference sequences (43): INIT, the lock at D1, the handler's precedence,
the faults of the sequences' own steps, the empty SEND, SEND's poll and its publish. -/

namespace Sys2Proof.Proofs.SequenceSteps

open Sys2Proof.Machine Sys2Proof.Safety

/-! What performing a step of a context is, by the sequence in it. -/

section Contexts

variable {s : State} {p : Port}

theorem perform_handler {d : Drain} (hd : (portOf s p).drain = some d) (he : (portOf s p).handlerEnded = false) :
    perform (.handler p) s = .next (drainStep p d s) := by
  simp [perform, handlerStep, he, hd]

theorem perform_caller_init (hc : (portOf s p).caller = .init) (he : (portOf s p).callerEnded = false)
    (hi : (portOf s p).inh = false) : perform (.caller p) s = .next (initI1 p s) := by
  simp [perform, callerStep, he, hi, hc]

theorem perform_caller_send {x : Send} (hx : (portOf s p).caller = .send x) (he : (portOf s p).callerEnded = false)
    (hi : (portOf s p).inh = false) : perform (.caller p) s = .next (sendStep p x s) := by
  simp [perform, callerStep, he, hi, hx]

/-! The parts of a sequence's step. -/

theorem seqRead_of_lt {c : Ctx} {i : Nat} {k : Word → State} (hi : i < 128) :
    seqRead ⟨p, c⟩ i s k = k (view s p i) := by
  rw [seqRead, memRead_of_lt s p hi]

theorem seqRead_of_ge {c : Ctx} {i : Nat} {k : Word → State} (hi : 128 ≤ i) :
    seqRead ⟨p, c⟩ i s k = raiseFault ⟨p, c⟩ (.idxRange p i false) s := by
  rw [seqRead, memRead_of_ge s p hi]

theorem seqFunc_of_ok {α : Type} {ag : Agent} {res : Except Fault α} {v : α} {k : α → State} (h : res = .ok v) :
    seqFunc ag res s k = k v := by
  subst h
  rfl

theorem seqFunc_of_error {α : Type} {ag : Agent} {res : Except Fault α} {f : Fault} {k : α → State}
    (h : res = .error f) : seqFunc ag res s k = raiseFault ag f s := by
  subst h
  rfl

end Contexts

/-! Runs of a state with one port written out. -/

section Runs

variable {s : State} {p : Port} {m m' : Memory} {P P' : PortState} {l : List Input} {k : Nat}

theorem eq_withPort (hs : s.inputs = l) : s = withPort s p s.phys (portOf s p) l := by rw [← hs, withPort_self]

theorem run_withPort {e : Input} {t : State} (h : perform e (withPort s p m P l) = .next t) :
    Host.Core.run core (k + 1) (withPort s p m P (e :: l)) = Host.Core.run core k t :=
  run_cons (withPort_inputs ..) (by rwa [withPort_withInputs])

/-- Outside port `p` and the inputs nothing has changed where the memory has not. -/
theorem withPort_frame : withPort s p s.phys P l =
    { s with inputs := l, a := (withPort s p s.phys P l).a, b := (withPort s p s.phys P l).b } := by
  cases p <;> rfl

theorem setCaller_withPort {c : Caller} :
    setCaller p c (withPort s p m P l) = withPort s p m { P with caller := c } l := modPort_withPort ..

theorem setSend_withPort {x : Send} :
    setSend p x (withPort s p m P l) = withPort s p m { P with caller := .send x } l := setCaller_withPort

theorem setDrain_withPort {d : Drain} :
    setDrain p d (withPort s p m P l) = withPort s p m { P with drain := some d } l := modPort_withPort ..

theorem setLock_withPort {k : Lock} :
    setLock p k (withPort s p m P l) = withPort s p m { P with lock := k } l := modPort_withPort ..

theorem seqRead_txIr {c : Ctx} {k : Word → State} :
    seqRead ⟨p, c⟩ Config.txIr (withPort s p m P l) k = k (readCell m (irCell p)) := by
  rw [seqRead_of_lt (by decide), Config.txIr, view_withPort _ _ _ _ _ (by decide) (by decide), physIndex_txIr]

theorem seqRead_rxIr {c : Ctx} {k : Word → State} :
    seqRead ⟨p, c⟩ Config.rxIr (withPort s p m P l) k = k (readCell m (irCell (other p))) := by
  rw [seqRead_of_lt (by decide), Config.rxIr, view_withPort _ _ _ _ _ (by decide) (by decide), physIndex_rxIr]

theorem seqWrite_txIr {c : Ctx} {v : Word} {k : State → State} :
    seqWrite ⟨p, c⟩ Config.txIr v (withPort s p m P l) k = k (withPort s p (writeCell m (irCell p) v) P l) := by
  rw [Config.txIr, seqWrite_withPort_cell _ _ _ _ _ _ _ _ (by decide) (by decide) (by decide), physIndex_txIr]

/-! INIT (43 R120). -/

/-- I1's value: EN and the whole of VALID. -/
theorem csrMake_arm : csrMake 1 validMask.toNat = .ok 0xFFFFFFFFFFFFFFFF :=
  csrMake_of_le le_rfl (by decide)

theorem initI1_withPort : initI1 p (withPort s p m P l) = withPort s p m
    { P with rxcsr := 0xFFFFFFFFFFFFFFFF, pend := false, caller := .idle, initDone := true } l := by
  rw [initI1, seqFunc_of_ok csrMake_arm, Config.rxCsr, seqWrite_withPort_rxCsr, modPort_withPort]

theorem startInit_withPort (hinit : P.initDone = false) (hi : P.inh = false) (he : P.callerEnded = false)
    (hc : P.caller = .idle) :
    startInit p (withPort s p m P l) = withPort s p m { P with caller := .init } l := by
  simp [startInit, hinit, hi, he, hc, setCaller_withPort]

theorem startSend_withPort {words : List Word} (hc : P.caller = .idle) (hinit : P.initDone = true)
    (hi : P.inh = false) (he : P.callerEnded = false) : startSend p words (withPort s p m P l) =
      withPort s p m { P with caller := .send (Send.start words) } l := by
  simp [startSend, hinit, hi, he, hc, setSend_withPort]

end Runs

/-- Settles O43: onInit is taken, and I1 arms the port. -/
theorem initArmsThePort : Obligations.InitArmsThePort := by
  intro s p rest hs hinit hi he hc
  have hstart := startInit_withPort (s := s) (p := p) (m := s.phys) (l := .caller p :: rest) hinit hi he hc
  have hrun : Host.Core.run core 2 s = .next (withPort s p s.phys
      { portOf s p with rxcsr := 0xFFFFFFFFFFFFFFFF, pend := false, caller := .idle, initDone := true } rest) := by
    calc Host.Core.run core 2 s
        = Host.Core.run core 2 (withPort s p s.phys (portOf s p) (.init p :: .caller p :: rest)) :=
          congrArg _ (eq_withPort hs)
      _ = Host.Core.run core 1 (withPort s p s.phys { portOf s p with caller := .init } (.caller p :: rest)) :=
          run_withPort (congrArg Host.Outcome.next hstart)
      _ = .next _ := by
          rw [run_withPort (perform_caller_init (by simp) (by simpa) (by simpa)), initI1_withPort]
          rfl
  refine ⟨_, hrun, ?_, portOf_withPort_other .., withPort_frame⟩
  rw [portOf_withPort, ← hc]

/-- Settles O44: D1 waits or takes the lock. -/
theorem drainWaitsForAHeldLock : Obligations.DrainWaitsForAHeldLock := by
  intro s p d hd he hp
  have hstep : perform (.handler p) s = .next (drainD1 p d s) := by rw [perform_handler hd he, drainStep, hp]
  rw [hstep]
  refine ⟨fun hl => ?_, fun hl => ⟨setDrain p { d with pos := .d2Read } (setLock p .held s), { d with pos := .d2Read },
    ?_, rfl, ?_, ?_, ?_⟩⟩
  · simp only [drainD1, hl]
  · simp only [drainD1, hl]
  · rw [portOf_setDrain, portOf_setLock]
  · rw [setDrain, portOf_modPort_other, setLock, portOf_modPort_other]
  · cases p <;> rfl

/-- Settles O45: the ordinary context looks at INH first. -/
theorem handlerHoldsTheOrdinaryContext : Obligations.HandlerHoldsTheOrdinaryContext := by
  intro s p hi
  rw [perform, callerStep, if_pos (by simp [hi])]

/-- Settles O46: each step faults where its bound, its index or its function does. -/
theorem sequencesFaultOutsideTheirRanges : Obligations.SequencesFaultOutsideTheirRanges := by
  refine fun s p => ⟨fun d hd he => ?handler, fun x hx he hi hp hge => ?caller⟩
  case handler =>
    rw [perform_handler hd he]
    refine ⟨fun hp hne hn => ?overrun, fun hp hne hn hge => ?index, fun hp hge => ?advance, fun hp hge => ?publish⟩
    case overrun => rw [drainStep, hp, drainD4, if_neg hne, drainMax, if_pos hn]
    case index => rw [drainStep, hp, drainD4, if_neg hne, drainMax, if_neg hn, seqRead_of_ge (by exact hge)]; rfl
    case advance => rw [drainStep, hp, drainD4Adv, seqFunc_of_error (PointerArithmetic.adv_of_ge hge)]
    case publish => rw [drainStep, hp, drainD5Write, seqFunc_of_error (BitfieldCodec.headPack_of_ge d.r hge)]
  case caller =>
    rw [perform_caller_send hx he hi, sendStep, hp, sendSb, seqFunc_of_error (PointerArithmetic.used_of_ge hge)]

/-- Settles O48: the call is taken, and S0 returns. -/
theorem emptySendReturnsAtOnce : Obligations.EmptySendReturnsAtOnce := by
  intro s p rest hs hc hinit hi he
  have hstart := startSend_withPort (s := s) (p := p) (m := s.phys) (l := .caller p :: rest) (words := []) hc hinit hi
    he
  calc Host.Core.run core 2 s
      = Host.Core.run core 2 (withPort s p s.phys (portOf s p) (.send p [] :: .caller p :: rest)) :=
        congrArg _ (eq_withPort hs)
    _ = Host.Core.run core 1 (withPort s p s.phys { portOf s p with caller := .send (Send.start []) }
          (.caller p :: rest)) := run_withPort (congrArg Host.Outcome.next hstart)
    _ = .next (withPort s p s.phys { portOf s p with caller := .idle } rest) :=
        run_caller (k := 0) (P := { portOf s p with caller := .send (Send.start []) }) rfl he hi setCaller_withPort
    _ = .next { s with inputs := rest } := by
        rw [← hc]
        exact congrArg _ (eq_withPort (s := { s with inputs := rest }) rfl).symm

end Sys2Proof.Proofs.SequenceSteps
end

section
/-! PROOFS. SEND (43 R130 to R137): its reading of the ring, its poll, its publish, and the whole of a SEND that
fits. -/

namespace Sys2Proof.Proofs.SendRuns

open Sys2Proof.Machine Sys2Proof.Safety Sys2Proof.Proofs.SequenceSteps Sys2Proof.Proofs.MachineInvariant

/-- FREE answers where USED does (42 R110). -/
theorem used_of_free_ok {c head tail f : Nat} (h : free c head tail = .ok f) :
    ∃ u, used c head tail = .ok u ∧ c - 1 - u = f := by
  unfold free at h
  split at h
  · next u hu => exact ⟨u, hu, Except.ok.inj h⟩
  · cases h

/-- Se's write: TAIL of the register as SEND read it is replaced (43 R134). -/
theorem sendStep_seWrite {s : State} {p : Port} {m : Memory} {P : PortState} {l : List Input} {x : Send} {v : Word}
    (hp : x.pos = .seWrite) (hv : tailPack s.cap x.r x.tail = .ok v) : sendStep p x (withPort s p m P l) =
      withPort s p (writeCell m (irCell p) v) { P with caller := .send { x with pos := .sf } } l := by
  rw [sendStep, hp, sendSeWrite, withPort_cap, seqFunc_of_ok hv, seqWrite_txIr, setSend_withPort]

/-- Sf: the bell rings at the other port (43 R135). -/
theorem sendStep_sf {s : State} {p : Port} {m : Memory} {P : PortState} {l : List Input} {x : Send}
    (hp : x.pos = .sf) : sendStep p x (withPort s p m P l) = withPort (doorbellPulse (other p) s) p m
      { P with txcsr := Config.doorbell, caller := .send { x with pos := .sg } } l := by
  rw [sendStep, hp]
  cases p <;> rfl

section Labels

variable {s : State} {p : Port} {m : Memory} {P : PortState} {l : List Input} {k : Nat} {x : Send}
  (hx : P.caller = .send x) (he : P.callerEnded = false) (hi : P.inh = false)
include hx he hi

/-- Sa and Sb: SEND reads the two info registers and counts the free slots (43 R131, R132). -/
theorem run_send_count {f : Nat} (hp : x.pos = .saTx)
    (hf : free s.cap (headGet (readCell m (irCell (other p)))) (tailGet (readCell m (irCell p))) = .ok f) :
    ∃ y, Host.Core.run core (k + 3) (withPort s p m P (.caller p :: .caller p :: .caller p :: l)) =
        Host.Core.run core k (withPort s p m { P with caller := .send y } l) ∧
      y.pos = .sc ∧ y.words = x.words ∧ y.sent = x.sent ∧ y.tail = tailGet (readCell m (irCell p)) ∧ y.free = f := by
  obtain ⟨u, hu, rfl⟩ := used_of_free_ok hf
  let x1 : Send := { x with sir := readCell m (irCell p), tail := tailGet (readCell m (irCell p)), pos := .saRx }
  let x2 : Send := { x1 with
    rir := readCell m (irCell (other p)), head := headGet (readCell m (irCell (other p))), pos := .sb }
  let x3 : Send := { x2 with used := u, free := s.cap - 1 - u, pos := .sc }
  have h1 {l} : sendStep p x (withPort s p m P l) = withPort s p m { P with caller := .send x1 } l := by
    rw [sendStep, hp, sendSaTx, seqRead_txIr, setSend_withPort]
  have h2 {l} : sendStep p x1 (withPort s p m { P with caller := .send x1 } l) =
      withPort s p m { P with caller := .send x2 } l := by
    rw [sendStep, sendSaRx, seqRead_rxIr, setSend_withPort]
  have h3 {l} : sendStep p x2 (withPort s p m { P with caller := .send x2 } l) =
      withPort s p m { P with caller := .send x3 } l := by
    rw [sendStep, sendSb, withPort_cap, seqFunc_of_ok hu, setSend_withPort]
  refine ⟨x3, ?_, rfl, rfl, rfl, rfl, rfl⟩
  rw [run_caller hx he hi h1, run_caller (P := { P with caller := .send x1 }) rfl he hi h2,
    run_caller (P := { P with caller := .send x2 }) rfl he hi h3]

/-- S0 to Sd's count, where `f` slots are free for a non-empty list: the pass takes what fits (43 R130 to R133). -/
theorem run_send_start {f : Nat} (hp : x.pos = .s0) (hne : x.words ≠ [])
    (hf : free s.cap (headGet (readCell m (irCell (other p)))) (tailGet (readCell m (irCell p))) = .ok f)
    (hpos : f ≠ 0) :
    ∃ y, Host.Core.run core (k + 6) (withPort s p m P (List.replicate 6 (.caller p) ++ l)) =
        Host.Core.run core k (withPort s p m { P with caller := .send y } l) ∧
      y.pos = .sdWrite ∧ y.words = x.words ∧ y.sent = 0 ∧ y.tail = tailGet (readCell m (irCell p)) ∧ y.j = 0 ∧
      y.k = min f x.words.length := by
  let x0 : Send := { x with sent := 0, pos := .saTx }
  have h0 {l} : sendStep p x (withPort s p m P l) = withPort s p m { P with caller := .send x0 } l := by
    rw [sendStep, hp, sendS0]
    obtain ⟨w, ws, hw⟩ := List.exists_cons_of_ne_nil hne
    simp only [hw, setSend_withPort, x0]
  obtain ⟨y, hrun, hyp, hyw, hys, hyt, hyf⟩ := run_send_count (x := x0) (P := { P with caller := .send x0 })
    (k := k + 2) (l := .caller p :: .caller p :: l) rfl he hi rfl hf
  let y1 : Send := { y with pos := .sdCount }
  let y2 : Send := { y1 with k := min y.free (y.words.length - y.sent), j := 0, pos := .sdWrite }
  have h4 {l} : sendStep p y (withPort s p m { P with caller := .send y } l) =
      withPort s p m { P with caller := .send y1 } l := by
    rw [sendStep, hyp, sendSc, if_neg (hyf ▸ hpos), setSend_withPort]
  have h5 {l} : sendStep p y1 (withPort s p m { P with caller := .send y1 } l) =
      withPort s p m { P with caller := .send y2 } l := by
    rw [sendStep, sendSdCount, setSend_withPort]
  refine ⟨y2, ?_, rfl, hyw, hys, hyt, rfl, ?_⟩
  · refine (run_caller hx he hi h0).trans (hrun.trans ?_)
    rw [run_caller (P := { P with caller := .send y }) rfl he hi h4,
      run_caller (P := { P with caller := .send y1 }) rfl he hi h5]
  · show min y.free (y.words.length - y.sent) = _
    rw [hyf, hyw, hys, Nat.sub_zero]

/-- Se to Sg of the last pass: TAIL is published, the bell rung, and SEND returns (43 R134 to R136). -/
theorem run_send_publish {v : Word} (hp : x.pos = .seRead) (hlast : x.words.length ≤ x.sent + x.k)
    (hv : tailPack s.cap (readCell m (irCell p)) x.tail = .ok v) :
    Host.Core.run core (k + 4) (withPort s p m P (List.replicate 4 (.caller p) ++ l)) =
      Host.Core.run core k (withPort (doorbellPulse (other p) s) p (writeCell m (irCell p) v)
        { P with txcsr := Config.doorbell, caller := .idle } l) := by
  let x1 : Send := { x with r := readCell m (irCell p), pos := .seWrite }
  let x2 : Send := { x1 with pos := .sf }
  let x3 : Send := { x2 with pos := .sg }
  have h1 {l} : sendStep p x (withPort s p m P l) = withPort s p m { P with caller := .send x1 } l := by
    rw [sendStep, hp, sendSeRead, seqRead_txIr, setSend_withPort]
  have h4 {s m P l} : sendStep p x3 (withPort s p m P l) = withPort s p m { P with caller := .idle } l := by
    rw [sendStep, sendSg, if_neg (Nat.not_lt.mpr hlast), setCaller_withPort]
  calc Host.Core.run core (k + 4) (withPort s p m P (List.replicate 4 (.caller p) ++ l))
      = Host.Core.run core (k + 3) (withPort s p m { P with caller := .send x1 } (List.replicate 3 (.caller p) ++ l)) :=
        run_caller hx he hi h1
    _ = Host.Core.run core (k + 2) (withPort s p (writeCell m (irCell p) v) { P with caller := .send x2 }
          (List.replicate 2 (.caller p) ++ l)) :=
        run_caller (P := { P with caller := .send x1 }) rfl he hi (sendStep_seWrite rfl hv)
    _ = Host.Core.run core (k + 1) (withPort (doorbellPulse (other p) s) p (writeCell m (irCell p) v)
          { P with txcsr := Config.doorbell, caller := .send x3 } (.caller p :: l)) := by
        rw [List.replicate_succ, List.cons_append,
          run_withPort (perform_caller_send (x := x2) (by simp) (by simpa) (by simpa)), sendStep_sf rfl]
        rfl
    _ = Host.Core.run core k (withPort (doorbellPulse (other p) s) p (writeCell m (irCell p) v)
          { P with txcsr := Config.doorbell, caller := .idle } l) :=
        run_caller (P := { P with txcsr := Config.doorbell, caller := .send x3 }) rfl he hi h4

end Labels

/-- Settles O50: the count is 0, and Sc goes back to Sa. -/
theorem fullRingMakesSendPoll : Obligations.FullRingMakesSendPoll := by
  intro s p x rest hx hp he hi hf hs
  rw [irOf_eq, irOf_eq] at hf
  obtain ⟨y, hrun, hyp, hyw, hys, -, hyf⟩ := run_send_count (k := 1) (l := .caller p :: rest) hx he hi hp hf
  have hback : sendStep p y (withPort s p s.phys { portOf s p with caller := .send y } rest) =
      withPort s p s.phys { portOf s p with caller := .send { y with pos := .saTx } } rest := by
    rw [sendStep, hyp, sendSc, if_pos hyf, setSend_withPort]
  have hend : Host.Core.run core 4 s =
      .next (withPort s p s.phys { portOf s p with caller := .send { y with pos := .saTx } } rest) :=
    calc Host.Core.run core 4 s
        = Host.Core.run core 4 (withPort s p s.phys (portOf s p) (List.replicate 4 (.caller p) ++ rest)) :=
          congrArg _ (eq_withPort hs)
      _ = Host.Core.run core 1 (withPort s p s.phys { portOf s p with caller := .send y } (.caller p :: rest)) := hrun
      _ = .next _ := run_caller (k := 0) (P := { portOf s p with caller := .send y }) rfl he hi hback
  exact ⟨_, { y with pos := .saTx }, hend, portOf_withPort .., rfl, hyw, hys, portOf_withPort_other .., withPort_frame⟩

/-- Settles O53: the register written is SEND's own reading with its TAIL replaced. -/
theorem sendPublishUndoesADrainInBetween : Obligations.SendPublishUndoesADrainInBetween := by
  intro s p x h hx hp he hi
  obtain ⟨-, hok⟩ := sendOk_of_caller h hx
  simp only [sendOk, hp, decide_eq_true_eq] at hok
  obtain ⟨htail, -, -⟩ := hok
  have hc := (cap_bounds h).2
  have hv := tailPack_of_lt (reg := x.r) hc htail
  obtain ⟨hvtail, hvhead, -⟩ := tailPack_fields hc htail hv
  have hstep := sendStep_seWrite (p := p) (m := s.phys) (P := portOf s p) (l := s.inputs) hp hv
  rw [withPort_self] at hstep
  refine ⟨_, (perform_caller_send hx he hi).trans (congrArg _ hstep), ?_⟩
  rw [irOf_eq, withPort_phys, readCell_writeCell_same _ _ _ (indicesRise_of_wf (phys_wf h))]
  exact ⟨hvhead, hvtail⟩

theorem replicate_add_append {α : Type} (a b c : Nat) (e : α) (l : List α) : List.replicate (a + b + c) e ++ l =
    List.replicate a e ++ (List.replicate b e ++ (List.replicate c e ++ l)) := by
  rw [← List.append_assoc, ← List.append_assoc, List.replicate_append_replicate, List.replicate_append_replicate]

/-- A SEND of a list that fits, run by itself: the memory it leaves, and what of its port it leaves (43 R130 to
R137). -/
theorem run_send {s : State} {p : Port} {m : Memory} {P : PortState} {l : List Input} {words : List Word} {f : Nat}
    {k : Nat} (hc2 : 2 ≤ s.cap) (hc : s.cap ≤ 62) (hwf : m.wf = true) (hx : P.caller = .send (Send.start words))
    (he : P.callerEnded = false) (hi : P.inh = false) (hne : words ≠ [])
    (hf : free s.cap (headGet (readCell m (irCell (other p)))) (tailGet (readCell m (irCell p))) = .ok f)
    (hle : words.length ≤ f) :
    ∃ m' v, Host.Core.run core (k + (2 * words.length + 11))
          (withPort s p m P (List.replicate (2 * words.length + 11) (.caller p) ++ l)) =
        Host.Core.run core k (withPort (doorbellPulse (other p) s) p (writeCell m' (irCell p) v)
          { P with txcsr := Config.doorbell, caller := .idle } l) ∧
      tailPack s.cap (readCell m (irCell p)) ((tailGet (readCell m (irCell p)) + words.length) % s.cap) = .ok v ∧
      m'.wf = true ∧
      (∀ q, (h : q < words.length) →
        readCell m' (sendSlotCell p ((tailGet (readCell m (irCell p)) + q) % s.cap)) = words[q]) ∧
      (∀ cell, (∀ q, q < words.length → cell ≠ sendSlotCell p ((tailGet (readCell m (irCell p)) + q) % s.cap)) →
        readCell m' cell = readCell m cell) := by
  obtain ⟨u, hu, rfl⟩ := used_of_free_ok hf
  obtain ⟨-, htail⟩ := lt_of_used_ok hu
  have hpos : words.length ≠ 0 := mt List.length_eq_zero_iff.mp hne
  obtain ⟨y, hstart, hyp, hyw, hys, hyt, hyj, hyk⟩ := run_send_start (x := Send.start words)
    (k := 2 * words.length + 1 + (k + 4))
    (l := List.replicate (2 * words.length + 1) (.caller p) ++ (List.replicate 4 (.caller p) ++ l))
    hx he hi rfl hne hf (by omega)
  replace hyw : y.words = words := hyw
  replace hyk : y.k = words.length := hyk.trans (Nat.min_eq_right hle)
  obtain ⟨m', y', hloop, hyp', hyt', hyw', hys', hyk', hwf', hslots, hframe⟩ :=
    run_send_loop s p (List.replicate 4 (.caller p) ++ l) hc hc2 words.length m { P with caller := .send y } y (k + 4)
      rfl he hi hyp hwf (hyt ▸ htail) (by omega) (by rw [hys, hyk, hyw]; omega) (by omega)
  rw [hyt] at hyt' hslots hframe
  have hlt (q : Nat) : (tailGet (readCell m (irCell p)) + q) % s.cap < s.cap := Nat.mod_lt _ (by omega)
  have hir : readCell m' (irCell p) = readCell m (irCell p) :=
    hframe _ fun q _ => (sendSlotCell_ne_irCell p p (by have := hlt q; omega)).symm
  have hv := tailPack_of_lt (reg := readCell m (irCell p)) hc (hlt words.length)
  refine ⟨m', _, ?_, hv, hwf', fun q hq => ?_, hframe⟩
  · rw [show 2 * words.length + 11 = 6 + (2 * words.length + 1) + 4 by omega, replicate_add_append,
      show k + (6 + (2 * words.length + 1) + 4) = 2 * words.length + 1 + (k + 4) + 6 by omega, hstart, hloop]
    exact run_send_publish (P := { P with caller := .send y' }) rfl he hi hyp' (by rw [hyw', hys', hyk', hyw]; omega)
      (by rw [hir, hyt']; exact hv)
  · rw [hslots q hq, hyw, hys, hyj, Nat.zero_add, getElem!_pos words q hq]

/-- Settles O51: the words and then TAIL are all that is stored, and the bell is the peer's only change. -/
theorem sendWritesPublishesAndRings : Obligations.SendWritesPublishesAndRings := by
  intro s p words f rest h hx he hi hne hf hle hs
  obtain ⟨hc2, hc⟩ := cap_bounds h
  rw [irOf_eq, irOf_eq] at hf
  obtain ⟨m', v, hrun, hv, hwf', hslots, hframe⟩ :=
    run_send (k := 0) (l := rest) hc2 hc (phys_wf h) hx he hi hne hf hle
  have hlt (q : Nat) : (tailGet (readCell s.phys (irCell p)) + q) % s.cap < s.cap := Nat.mod_lt _ (by omega)
  obtain ⟨hvtail, hvhead, hvrsvd⟩ := tailPack_fields hc (hlt _) hv
  rw [Nat.zero_add, ← eq_withPort hs] at hrun
  have hir {u : State} {P : PortState} : irOf (withPort u p (writeCell m' (irCell p) v) P rest) p = v := by
    rw [irOf_eq, withPort_phys, readCell_writeCell_same _ _ _ (indicesRise_of_wf hwf')]
  rw [irOf_eq s p]
  refine ⟨_, hrun, fun q hq => ?_, ?_, ?_, ?_, fun cell hcell hslot => ?_, portOf_withPort .., ?_, ?_, ?_,
    withPort_inputs ..⟩
  · rw [withPort_phys, readCell_writeCell_ne _ _ (sendSlotCell_ne_irCell p p (by have := hlt q; omega))]
    exact hslots q hq
  · rw [hir, hvtail]
  · rw [hir, hvhead]
  · rw [hir, hvrsvd]
  · rw [withPort_phys, readCell_writeCell_ne _ _ hcell]
    exact hframe cell hslot
  · rw [portOf_withPort_other, doorbellPulse, portOf_modPort]
  · rw [withPort_fault, doorbellPulse, modPort_fault]
  · rw [withPort_refusal, doorbellPulse, modPort_refusal]

end Sys2Proof.Proofs.SendRuns
end

section
/-! PROOFS. DRAIN (43 R121 to R129): the whole of a DRAIN that nothing disturbs. -/

namespace Sys2Proof.Proofs.DrainRuns

open Sys2Proof.Machine Sys2Proof.Safety Sys2Proof.Proofs.SequenceSteps Sys2Proof.Proofs.MachineInvariant
open Sys2Proof.Proofs.PointerArithmetic

section Labels

variable {s : State} {p : Port} {m : Memory} {P : PortState} {l : List Input} {k : Nat} {d : Drain}
  (hd : P.drain = some d) (he : P.handlerEnded = false)
include hd he

/-- D1 to D3: DRAIN takes the lock, re-arms the receive CSR and reads the two info registers (43 R121 to R123). -/
theorem run_drain_start (hp : d.pos = .d1) (hl : P.lock = .free) :
    ∃ d', Host.Core.run core (k + 5) (withPort s p m P (List.replicate 5 (.handler p) ++ l)) =
        Host.Core.run core k (withPort s p m
          { P with lock := .held, rxcsr := P.rxcsr ||| enMask, pend := false, drain := some d' } l) ∧
      d'.pos = .d4 ∧ d'.head = headGet (readCell m (irCell p)) ∧
      d'.tail = tailGet (readCell m (irCell (other p))) ∧ d'.n = 0 ∧ d'.buf = [] := by
  let P1 : PortState := { P with lock := .held }
  let P2 : PortState := { P1 with rxcsr := P.rxcsr ||| enMask, pend := false }
  let d1 : Drain := { d with pos := .d2Read }
  let d2 : Drain := { d1 with c := P.rxcsr, valid := validField P.rxcsr, pos := .d2Write }
  let d3 : Drain := { d2 with pos := .d3Rx }
  let d4 : Drain := { d3 with
    rir := readCell m (irCell (other p)), tail := tailGet (readCell m (irCell (other p))), pos := .d3Tx }
  let d5 : Drain := { d4 with
    sir := readCell m (irCell p), head := headGet (readCell m (irCell p)), n := 0, buf := [], pos := .d4 }
  have h1 {l} : drainStep p d (withPort s p m P l) = withPort s p m { P1 with drain := some d1 } l := by
    rw [drainStep, hp, drainD1, portOf_withPort, hl, setLock_withPort, setDrain_withPort]
  have h2 {l} : drainStep p d1 (withPort s p m { P1 with drain := some d1 } l) =
      withPort s p m { P1 with drain := some d2 } l := by
    rw [drainStep, drainD2Read, seqRead_of_lt (by decide), Config.rxCsr, view_rxCsr, portOf_withPort, setDrain_withPort]
  have h3 {l} : drainStep p d2 (withPort s p m { P1 with drain := some d2 } l) =
      withPort s p m { P2 with drain := some d3 } l := by
    rw [drainStep, drainD2Write, seqFunc_of_ok (csrMake_rearm P.rxcsr), Config.rxCsr, seqWrite_withPort_rxCsr,
      setDrain_withPort]
  have h4 {l} : drainStep p d3 (withPort s p m { P2 with drain := some d3 } l) =
      withPort s p m { P2 with drain := some d4 } l := by
    rw [drainStep, drainD3Rx, seqRead_rxIr, setDrain_withPort]
  have h5 {l} : drainStep p d4 (withPort s p m { P2 with drain := some d4 } l) =
      withPort s p m { P2 with drain := some d5 } l := by
    rw [drainStep, drainD3Tx, seqRead_txIr, setDrain_withPort]
  refine ⟨d5, ?_, rfl, rfl, rfl, rfl, rfl⟩
  exact (run_handler hd he h1).trans ((run_handler (P := { P1 with drain := some d1 }) rfl he h2).trans
    ((run_handler (P := { P1 with drain := some d2 }) rfl he h3).trans
    ((run_handler (P := { P2 with drain := some d3 }) rfl he h4).trans
    (run_handler (P := { P2 with drain := some d4 }) rfl he h5))))

/-- D5 and D6: DRAIN publishes its head and releases the lock (43 R126, R127). -/
theorem run_drain_publish {v : Word} (hp : d.pos = .d5Read)
    (hv : headPack s.cap (readCell m (irCell p)) d.head = .ok v) :
    ∃ d', Host.Core.run core (k + 3) (withPort s p m P (List.replicate 3 (.handler p) ++ l)) =
        Host.Core.run core k (withPort s p (writeCell m (irCell p) v) { P with lock := .free, drain := some d' } l) ∧
      d'.pos = .d7 ∧ d'.n = d.n ∧ d'.buf = d.buf := by
  let d1 : Drain := { d with r := readCell m (irCell p), pos := .d5Write }
  let d2 : Drain := { d1 with pos := .d6 }
  let d3 : Drain := { d2 with pos := .d7 }
  have h1 {l} : drainStep p d (withPort s p m P l) = withPort s p m { P with drain := some d1 } l := by
    rw [drainStep, hp, drainD5Read, seqRead_txIr, setDrain_withPort]
  have h2 {l} : drainStep p d1 (withPort s p m { P with drain := some d1 } l) =
      withPort s p (writeCell m (irCell p) v) { P with drain := some d2 } l := by
    rw [drainStep, drainD5Write, withPort_cap, seqFunc_of_ok hv, seqWrite_txIr, setDrain_withPort]
  have h3 {m l} : drainStep p d2 (withPort s p m { P with drain := some d2 } l) =
      withPort s p m { P with lock := .free, drain := some d3 } l := by
    rw [drainStep, drainD6, setLock_withPort, setDrain_withPort]
  refine ⟨d3, ?_, rfl, rfl, rfl⟩
  exact (run_handler hd he h1).trans ((run_handler (P := { P with drain := some d1 }) rfl he h2).trans
    (run_handler (P := { P with drain := some d2 }) rfl he h3))

end Labels

/-- The occupancy leads from head to tail (42 R109). -/
theorem add_mod_of_used_ok {c head tail n : Nat} (hh : head < c) (ht : tail < c) (h : used c head tail = .ok n) :
    (head + n) % c = tail ∧ n ≤ c - 1 := by
  cases (used_eq_ok_occupancy hh ht).symm.trans h
  obtain ⟨hlt, hsum | hsum⟩ := occupancy_spec hh ht
  · rw [hsum, Nat.mod_eq_of_lt ht]
    exact ⟨rfl, Nat.le_pred_of_lt hlt⟩
  · rw [hsum, Nat.add_mod_right, Nat.mod_eq_of_lt ht]
    exact ⟨rfl, Nat.le_pred_of_lt hlt⟩

/-- A DRAIN run by itself: the words it reads, the register it publishes, and what of its port it leaves. -/
theorem run_drain {s : State} {p : Port} {m : Memory} {P : PortState} {l : List Input} {k n : Nat} {d : Drain}
    (hc : s.cap ≤ 62) (hd : P.drain = some d) (he : P.handlerEnded = false) (hp : d.pos = .d1) (hl : P.lock = .free)
    (hhead : headGet (readCell m (irCell p)) < s.cap) (htail : tailGet (readCell m (irCell (other p))) < s.cap)
    (hused : used s.cap (headGet (readCell m (irCell p))) (tailGet (readCell m (irCell (other p)))) = .ok n) :
    ∃ d' v, Host.Core.run core (k + (2 * n + 9)) (withPort s p m P (List.replicate (2 * n + 9) (.handler p) ++ l)) =
        Host.Core.run core k (withPort s p (writeCell m (irCell p) v)
          { P with lock := .free, rxcsr := P.rxcsr ||| enMask, pend := false, drain := some d' } l) ∧
      headPack s.cap (readCell m (irCell p)) (tailGet (readCell m (irCell (other p)))) = .ok v ∧
      d'.pos = .d7 ∧ d'.n = n ∧
      d'.buf = (List.range n).map
        fun j => readCell m (physIndex p (64 + (headGet (readCell m (irCell p)) + j) % s.cap)) := by
  obtain ⟨hmod, hn⟩ := add_mod_of_used_ok hhead htail hused
  obtain ⟨d1, hstart, hp1, hh1, ht1, hn1, hb1⟩ := run_drain_start (s := s) (m := m) (k := 2 * n + 1 + (k + 3))
    (l := List.replicate (2 * n + 1) (.handler p) ++ (List.replicate 3 (.handler p) ++ l)) hd he hp hl
  obtain ⟨d2, hloop, hp2, hn2, hh2, hb2⟩ := run_drain_loop s p m (List.replicate 3 (.handler p) ++ l) hc n
    { P with lock := .held, rxcsr := P.rxcsr ||| enMask, pend := false, drain := some d1 } d1 (k + 3) rfl he hp1
    (by rwa [hh1]) (by rwa [ht1]) (by rw [hh1, ht1, hmod]) (by rw [hn1]; omega)
  rw [ht1] at hh2
  have hv := headPack_of_lt (reg := readCell m (irCell p)) hc htail
  obtain ⟨d3, hpublish, hp3, hn3, hb3⟩ := run_drain_publish (s := s) (m := m) (k := k) (l := l)
    (P := { P with lock := .held, rxcsr := P.rxcsr ||| enMask, pend := false, drain := some d2 }) rfl he hp2
    (by rw [hh2]; exact hv)
  refine ⟨d3, _, ?_, hv, hp3, by rw [hn3, hn2, hn1, Nat.zero_add], by rw [hb3, hb2, hb1, hh1, List.nil_append]⟩
  rw [show 2 * n + 9 = 5 + (2 * n + 1) + 3 by omega, SendRuns.replicate_add_append,
    show k + (5 + (2 * n + 1) + 3) = 2 * n + 1 + (k + 3) + 5 by omega, hstart, hloop]
  exact hpublish

/-- Settles O47: the lock is free at D1, and the register published is all that is stored. -/
theorem drainReadsTheWholeRingInOrder : Obligations.DrainReadsTheWholeRingInOrder := by
  intro s p d n rest h hd hp he hhead htail hused hs
  have hc := (cap_bounds h).2
  have hl : (portOf s p).lock = .free := by
    obtain ⟨-, -, -, hlock⟩ := handlerOk_of_drain h hd
    rw [hp] at hlock
    cases hlk : (portOf s p).lock with
    | free => rfl
    | held => rw [hlk] at hlock; cases hlock
  have hview (j : Nat) : view s p (64 + (headGet (irOf s p) + j) % s.cap) =
      readCell s.phys (physIndex p (64 + (headGet (irOf s p) + j) % s.cap)) := by
    have hlt := Nat.mod_lt (headGet (irOf s p) + j) (Nat.zero_lt_of_lt hhead)
    exact view_cell s p (by omega) (by omega)
  simp only [hview]
  rw [irOf_eq] at hhead htail
  rw [irOf_eq, irOf_eq] at hused
  obtain ⟨d', v, hrun, hv, hp', hn', hbuf⟩ := run_drain (k := 0) (l := rest) hc hd he hp hl hhead htail hused
  obtain ⟨hvhead, hvtail, hvrsvd⟩ := headPack_fields hc htail hv
  rw [Nat.zero_add, ← eq_withPort hs] at hrun
  have hir {P : PortState} : irOf (withPort s p (writeCell s.phys (irCell p) v) P rest) p = v := by
    rw [irOf_eq, withPort_phys, readCell_writeCell_same _ _ _ (indicesRise_of_wf (phys_wf h))]
  rw [irOf_eq s p, irOf_eq s (other p)]
  refine ⟨_, d', hrun, by rw [portOf_withPort], hp', hn', hbuf, ?_, ?_, ?_, fun cell hcell => ?_, ?_,
    portOf_withPort_other .., withPort_fault .., withPort_refusal .., withPort_inputs ..⟩
  · rw [hir, hvhead]
  · rw [hir, hvtail]
  · rw [hir, hvrsvd]
  · rw [withPort_phys, readCell_writeCell_ne _ _ hcell]
  · rw [portOf_withPort, ← hl]

end Sys2Proof.Proofs.DrainRuns
end

section
/-! PROOFS. The round trip of one pass (95 WE-1): SEND, one delivery to the peer and the peer's DRAIN, each by its own
statement, and the machine's invariant along the run. -/

namespace Sys2Proof.Proofs.RoundTrip

open Sys2Proof.Machine Sys2Proof.Safety Sys2Proof.Proofs.MachineInvariant Sys2Proof.Proofs.PointerArithmetic

theorem run_one {s t : State} (h : step s = .next t) : Host.Core.run core 1 s = .next t := by
  have : core.step s = .next t := h
  simp only [Host.Core.run, this]

/-- What every step keeps, a run keeps. -/
theorem run_keeps {k : Nat} {s t : State} (h : MachineInv s) (hrun : Host.Core.run core k s = .next t) :
    MachineInv t ∧ t.cap = s.cap := by
  induction k generalizing s with
  | zero =>
    cases hrun
    exact ⟨h, rfl⟩
  | succ k ih =>
    obtain ⟨s', hstep⟩ := DirectAgent.step_next s
    rw [Nat.add_comm, run_add k (run_one hstep)] at hrun
    obtain ⟨hinv, hcap⟩ := ih (everyStepKeepsTheInvariant s s' h hstep) hrun
    exact ⟨hinv, hcap.trans (DirectAgent.step_inputs_cap hstep).2⟩

/-- Every slot of an empty ring but one is free (42 R110). -/
theorem free_of_empty {c i : Nat} (hi : i < c) : free c i i = .ok (c - 1) := by
  rw [free_of_used_ok (used_eq_ok_occupancy hi hi), (occupancy_eq_zero_iff hi hi).mpr rfl, Nat.sub_zero]

/-- `n` words after the head of a ring that holds them are its occupancy. -/
theorem used_add_mod {c i n : Nat} (hi : i < c) (hn : n ≤ c - 1) : used c i ((i + n) % c) = .ok n := by
  have hlt : (i + n) % c < c := Nat.mod_lt _ (by omega)
  have hmod : (i + n) % c = i + n ∨ (i + n) % c + c = i + n := by
    obtain h | h := Nat.lt_or_ge (i + n) c
    · exact .inl (Nat.mod_eq_of_lt h)
    · rw [Nat.mod_eq_sub_mod h, Nat.mod_eq_of_lt (by omega)]
      omega
  have hocc := occupancy_spec hi hlt
  rw [used_eq_ok_occupancy hi hlt, Except.ok.injEq]
  omega

/-- The slots one port sends from are the slots the other receives in (10 R23). -/
theorem physIndex_other_rxSlot (p : Port) {i : Nat} (hi : i ≤ 61) :
    physIndex (other p) (64 + i) = sendSlotCell p i := by
  rw [physIndex_rxSlot (other p) (by omega) (by omega)]
  cases p <;> simp [other, recvSlotCell, sendSlotCell]

theorem irCell_other_ne (p : Port) : irCell (other p) ≠ irCell p := by cases p <;> decide

/-- Settles O52: SEND publishes the tail that DRAIN reads, in slots that are DRAIN's too, and rings an armed port. -/
theorem sentWordsAreDrainedInOrder : Obligations.SentWordsAreDrainedInOrder := by
  intro s p words rest h hx he hi hne hle hhead hempty hrx hinit hinh hhe hs
  have hc := (cap_bounds h).2
  have hfree : free s.cap (headGet (irOf s (other p))) (tailGet (irOf s p)) = .ok (s.cap - 1) := by
    rw [hempty, free_of_empty hhead]
  obtain ⟨(t : State), hsend, hslots, htail, -, -, hframe, -, hpeer, hfault, -, hinputs⟩ :=
    SendRuns.sendWritesPublishesAndRings s p words _ _ h hx he hi hne hfree hle hs
  obtain ⟨hinv, hcap⟩ := run_keeps h hsend
  have hslot_le (k : Nat) : (tailGet (irOf s p) + k) % s.cap ≤ 61 := by
    have := Nat.mod_lt (tailGet (irOf s p) + k) (Nat.zero_lt_of_lt hhead)
    omega
  have hirq : irq t (other p) = true := OwnRegisters.irq_of_allOnes (by rw [hpeer]; exact hrx) (by rw [hpeer])
  obtain ⟨u, d, hdeliver, huport, hd1, -, hu⟩ := Delivery.deliveryEntersTheHandler t (other p) _ hinputs
    (by rw [hpeer]; exact hinh) (by rw [hpeer]; exact hinit) (.inl hirq)
  have huphys : u.phys = t.phys := by rw [hu]
  have hucap : u.cap = s.cap := by rw [hu]; exact hcap
  have huir (q : Port) : irOf u q = irOf t q := RingInvariant.irOf_congr huphys q
  have hirpeer : irOf u (other p) = irOf s (other p) := by
    rw [huir, irOf_eq, irOf_eq]
    exact hframe _ (irCell_other_ne p) fun k _ => (sendSlotCell_ne_irCell p (other p) (hslot_le k)).symm
  have hirown : tailGet (irOf u p) = (headGet (irOf s (other p)) + words.length) % s.cap := by
    rw [huir, htail, hempty]
  obtain ⟨(v : State), d', hdrain, hv, hd7, -, hbuf, hpub, -, -, hvframe, -, -, hvfault, -, -⟩ :=
    DrainRuns.drainReadsTheWholeRingInOrder u (other p) d words.length rest
      (everyStepKeepsTheInvariant t u hinv hdeliver) (by rw [huport]) hd1 (by rw [huport, hpeer]; exact hhe)
      (by rwa [hirpeer, hucap]) (by rw [other_other, hirown, hucap]; exact Nat.mod_lt _ (Nat.zero_lt_of_lt hhead))
      (by rw [other_other, hirpeer, hirown, hucap]; exact used_add_mod hhead hle) (by rw [hu])
  refine ⟨v, d', ?_, hv, hd7, ?_, ?_, ?_⟩
  · rw [Nat.add_assoc, run_add _ hsend, run_add _ (run_one hdeliver), hdrain]
  · rw [hbuf]
    refine List.ext_getElem (by simp) fun k _ hk => ?_
    have hle61 := hslot_le k
    rw [hempty] at hle61
    rw [List.getElem_map, List.getElem_range, hirpeer, hucap, view_cell _ _ (by omega) (by omega),
      physIndex_other_rxSlot p hle61, huphys, ← hempty, hslots k hk]
  · rw [hpub, other_other, irOf_eq v p, hvframe _ (irCell_other_ne p).symm, ← irOf_eq]
  · rw [hvfault, ← hfault]
    rw [hu]

end Sys2Proof.Proofs.RoundTrip
end

section
/-! PROOFS. The writers of the cells (10 R36, R46): which window indices the sequences of a port write, and that no
other cell moves. -/

namespace Sys2Proof.Proofs.CellWriters

open Sys2Proof.Machine Sys2Proof.Safety Sys2Proof.Proofs.MachineInvariant

/-- Of the seven effects only a store moves a cell, and only the cell of its write. -/
theorem effect_readCell {p : Port} {s t : State} {w : Option (Nat × Word)} (h : Effect p s w t) {k : Nat}
    (hk : ∀ i v, w = some (i, v) → i ≠ 63 → i ≠ 127 → k ≠ physIndex p i) :
    readCell t.phys k = readCell s.phys k := by
  cases h with
  | stays => rfl
  | faults => rw [raiseFault_phys]
  | refuses => rw [refuse_phys]
  | localTo | arms => rw [setPort_phys]
  | stores i v P _ n1 n2 =>
    rw [setPort_phys]
    exact readCell_writeCell_ne _ _ (hk i v rfl n1 n2)
  | rings => rw [doorbellPulse, modPort_phys, setPort_phys]

section Indices

variable {c i : Nat} {v : Word}

theorem valueWrite_index {j : Nat} {r : Except Fault Word} (h : valueWrite j r = some (i, v)) : i = j := by
  cases r <;> cases h
  rfl

theorem drainWrite_index {d : Drain} (h : drainWrite c d = some (i, v)) : i = 62 ∨ i = 127 := by
  cases hp : d.pos <;> simp only [drainWrite, hp, reduceCtorEq] at h
  case d2Write => exact .inr (valueWrite_index h)
  case d5Write => exact .inl (valueWrite_index h)

theorem sendWrite_index {x : Send} (hx : sendOk c x = true) (h : sendWrite c x = some (i, v)) :
    i = 62 ∨ i = 63 ∨ i < c := by
  cases hp : x.pos <;> simp only [sendWrite, hp, reduceCtorEq] at h
  case sdWrite =>
    simp only [sendOk, hp, decide_eq_true_eq] at hx
    obtain ⟨htail, -, -, -⟩ := hx
    split at h
    · obtain ⟨w, -, hw⟩ := Option.map_eq_some_iff.mp h
      cases hw
      rw [Config.txBase, Nat.zero_add]
      exact .inr (.inr htail)
    · cases h
  case seWrite => exact .inl (valueWrite_index h)
  case sf => cases h; exact .inr (.inl rfl)

theorem handlerWrite_index {P : PortState} (h : handlerWrite c P = some (i, v)) : i = 62 ∨ i = 127 := by
  unfold handlerWrite at h
  split at h
  · cases h
  · split at h
    · cases h
    · exact drainWrite_index h

theorem callerWrite_index {s : State} {p : Port} (hinv : MachineInv s)
    (h : callerWrite s.cap (portOf s p) = some (i, v)) : i = 62 ∨ i = 63 ∨ i = 127 ∨ i < s.cap := by
  unfold callerWrite at h
  split at h
  · cases h
  · split at h
    · cases h
    · exact .inr (.inr (.inl (valueWrite_index h)))
    · next x hx =>
      have := sendWrite_index (sendOk_of_caller hinv hx).2 h
      omega

end Indices

/-- The window indices the contexts of a port write: the own info register, the CSRs, and SEND's slots. -/
theorem writeAccess_index {s : State} {e : Input} {ag : Agent} {i : Nat} {v : Word} (hinv : MachineInv s)
    (ha : agentOf e = some ag) (hctx : ag.ctx ≠ .direct) (h : writeAccess s e = some (i, v)) :
    i = 62 ∨ i = 63 ∨ i = 127 ∨ ag.ctx = .caller ∧ i < s.cap := by
  cases e with
  | issue | callRead | callWrite | hostRead | hostWrite => cases ha; exact absurd rfl hctx
  | init | send | interrupt | ack | reset => cases h
  | caller p =>
    cases ha
    have := callerWrite_index hinv h
    tauto
  | handler p =>
    have := handlerWrite_index h
    tauto

theorem actsFor_of_agentOf {e : Input} {ag : Agent} (h : agentOf e = some ag) : actsFor e = some ag.port := by
  cases e <;> cases h <;> rfl

/-- Settles O54: the only cell a step can move is that of its write's index. -/
theorem sequencesWriteOnlyTheirOwnCells : Obligations.SequencesWriteOnlyTheirOwnCells := by
  intro s t e rest ag hinv hs ha hctx hstep k hir hslot
  have hc := (cap_bounds hinv).2
  refine effect_readCell (OwnRegisters.step_effect hs (actsFor_of_agentOf ha) hstep) fun i v hw h63 h127 => ?_
  obtain rfl | rfl | rfl | ⟨hcaller, hlt⟩ := writeAccess_index hinv ha hctx hw
  · rwa [physIndex_txIr]
  · exact absurd rfl h63
  · exact absurd rfl h127
  · rw [physIndex_txSlot _ (by omega)]
    exact hslot hcaller i hlt

end Sys2Proof.Proofs.CellWriters
end
